-- ==== Sys2Proof/Word.lean ====
section
/-! DEFINITION. Word types of the core and the plain value operations of spec/00_scope.md rule R6. -/

namespace Sys2Proof

/-- A byte, or u8: an unsigned integer in 0..255 (R6). Registers, memory cells and encoded fields are bytes. -/
abbrev Byte := BitVec 8

/-- A program-counter value, or u9: an unsigned integer in 0..511 (R6, R25). -/
abbrev PcWord := BitVec 9

/-- `trunc8(v) = v mod 256` (R6). -/
def trunc8 (v : Nat) : Byte := BitVec.ofNat 8 v

/-- `zext_9(v)`: the byte with a zero bit above it (R6). -/
def zext9 (v : Byte) : PcWord := v.setWidth 9

end Sys2Proof
end

