-- ==== Sys2Proof/Config.lean ====
section
/-! DEFINITION. The core's parameters (spec/00_scope.md rule R5): what one core fixes and no instruction changes. -/

namespace Sys2Proof

/-- `OPCODE_MAP`: the opcode byte of each mnemonic (R5, R64). The default values stand in Decode.lean, beside the
decoder (`OpcodeMap.ls8`); the condition of R64 that the 13 values are distinct is `OpcodeMap.valid`, there too. -/
structure OpcodeMap where
  ldi  : Byte
  prn  : Byte
  mul  : Byte
  add  : Byte
  cmp  : Byte
  push : Byte
  pop  : Byte
  call : Byte
  ret  : Byte
  jmp  : Byte
  jeq  : Byte
  jne  : Byte
  halt : Byte
deriving DecidableEq, Repr

/-- The configuration (R35: "The configuration is not state"): the opcode map and `STACK_FLOOR`, an integer in
0..256 that is the lowest address a push may write (R5, R131). The launch inputs `INIT_REGS`, `INIT_MEM` and the image
are arguments of `State.resetWith` and `Session.boot`. DESIGN CHOICE (log 2): it is carried in State, where no step
writes it, so that a statement about every state holds for every configuration. -/
structure Config where
  opcodeMap  : OpcodeMap
  stackFloor : Fin 257
deriving DecidableEq, Repr

/-- `SP_RESET`: the reset value of the stack pointer x[7] (R5, R34). -/
def spReset : Byte := 0xF4#8

end Sys2Proof
end

