-- ==== Sys2Proof/Syntax.lean ====
section
/-! DEFINITION. The 13 instructions (spec/30_encoding.md rules R61 and R64; spec/opcode_table.json). -/

namespace Sys2Proof

/-- An instruction with its operand bytes as they stand in memory.

A register operand is a WHOLE byte (R62: "not masked and not split into fields"), and a byte of 8..255 "is not an illegal
encoding. It is a fatal REG_RANGE fault" (R66) that the instruction raises when its operands are validated (R86); so
the operand is kept as the byte, and the meaning does the check. DEDUCED (log 10). -/
inductive Instr where
  | ldi (r imm : Byte)   -- R100, format RI
  | prn (r : Byte)       -- R101, format R
  | mul (a b : Byte)     -- R115, format RR
  | add (a b : Byte)     -- R116, format RR
  | cmp (a b : Byte)     -- R117, format RR
  | push (r : Byte)      -- R133, format R
  | pop (r : Byte)       -- R134, format R
  | call (r : Byte)      -- R140, format R
  | ret                  -- R141, format Z
  | jmp (r : Byte)       -- R142, format R
  | jeq (r : Byte)       -- R143, format R
  | jne (r : Byte)       -- R144, format R
  | halt                 -- R145, format Z
deriving DecidableEq, Repr

end Sys2Proof
end

