-- ==== Sys2Proof/WellFormed.lean ====
section
/-! DEFINITION. Well-formed instructions: every register operand names one of the 8 registers
(spec/30_encoding.md rule R62, spec/40_engine.md rule R86). -/

namespace Sys2Proof

/-- "An index of 0..7 selects x[index]" (R62). -/
def regIndexOk (r : Byte) : Bool := r.toNat ≤ 7

/-- The register operands of an instruction, in ascending operand order (R86). LDI's immediate is none. -/
def Instr.regOperands : Instr → List Byte
  | .ldi r _  => [r]
  | .prn r    => [r]
  | .mul a b  => [a, b]
  | .add a b  => [a, b]
  | .cmp a b  => [a, b]
  | .push r   => [r]
  | .pop r    => [r]
  | .call r   => [r]
  | .ret      => []
  | .jmp r    => [r]
  | .jeq r    => [r]
  | .jne r    => [r]
  | .halt     => []

/-- Every register operand passes the check of R86. An instruction that is not well formed still decodes and runs: it
raises REG_RANGE (R62). -/
def Instr.wellFormed (i : Instr) : Bool := i.regOperands.all regIndexOk

end Sys2Proof
end

