-- ==== Sys2Proof/Decode.lean ====
section
/-! DEFINITION. The opcode map's default, the decoder, and after it the encoder (spec/30_encoding.md). -/

namespace Sys2Proof

/-- The default `OPCODE_MAP` (R64). PRESUMED (log 3): the values are the LS-8's, which the spec takes from general knowledge. -/
def OpcodeMap.ls8 : OpcodeMap where
  ldi  := 0b10000010#8
  prn  := 0b01000111#8
  mul  := 0b10100010#8
  add  := 0b10100000#8
  cmp  := 0b10100111#8
  push := 0b01000101#8
  pop  := 0b01000110#8
  call := 0b01010000#8
  ret  := 0b00010001#8
  jmp  := 0b01010100#8
  jeq  := 0b01010101#8
  jne  := 0b01010110#8
  halt := 0b00000001#8

/-- The rows of R64's table, by name. -/
inductive Mnemonic where
  | ldi | prn | mul | add | cmp | push | pop | call | ret | jmp | jeq | jne | halt
deriving DecidableEq, Repr

/-- The four formats of R61. -/
inductive Format where
  | z | r | rr | ri
deriving DecidableEq, Repr

/-- The "bytes" of a format (R60, R61). -/
def Format.bytes : Format → Nat
  | .z  => 1
  | .r  => 2
  | .rr => 3
  | .ri => 3

/-- The "format" column of R64. -/
def Mnemonic.format : Mnemonic → Format
  | .ldi  => .ri
  | .prn  => .r
  | .mul  => .rr
  | .add  => .rr
  | .cmp  => .rr
  | .push => .r
  | .pop  => .r
  | .call => .r
  | .ret  => .z
  | .jmp  => .r
  | .jeq  => .r
  | .jne  => .r
  | .halt => .z

/-- The "bytes" column of R64: the instruction's length, fixed by the opcode (R60, R67). -/
def Mnemonic.bytes (k : Mnemonic) : Nat := k.format.bytes

/-- The "opcode" column of R64 under a map. -/
def OpcodeMap.byteOf (m : OpcodeMap) : Mnemonic → Byte
  | .ldi  => m.ldi
  | .prn  => m.prn
  | .mul  => m.mul
  | .add  => m.add
  | .cmp  => m.cmp
  | .push => m.push
  | .pop  => m.pop
  | .call => m.call
  | .ret  => m.ret
  | .jmp  => m.jmp
  | .jeq  => m.jeq
  | .jne  => m.jne
  | .halt => m.halt

/-- Every mnemonic, HALT first: the engine checks for HALT before it looks an opcode up (R83). Under a valid map the
order has no effect. -/
def Mnemonic.all : List Mnemonic :=
  [.halt, .ldi, .prn, .mul, .add, .cmp, .push, .pop, .call, .ret, .jmp, .jeq, .jne]

/-- The condition R64 puts on a map: "it gives 13 distinct byte values". -/
def OpcodeMap.valid (m : OpcodeMap) : Bool := decide (Mnemonic.all.map m.byteOf).Nodup

/-- `decode(op)` of R65: an exact match of all 8 bits of the opcode byte against the map's 13 values. -/
def decodeOpcode (m : OpcodeMap) (op : Byte) : Option Mnemonic :=
  Mnemonic.all.find? fun k => m.byteOf k == op

/-- What the decoder makes of a list of bytes: an instruction and the bytes after it, or a rejection by name. -/
inductive DecodeResult where
  /-- An instruction, and the bytes that follow it. -/
  | ok (i : Instr) (rest : List Byte)
  /-- The first byte is none of the map's 13 (R66). The engine stops as UNKNOWN (R84). -/
  | unknownOpcode (op : Byte)
  /-- The list ends before byte `k` of the instruction (0 is the opcode). The engine raises MEM_RANGE there (R82, R85). -/
  | missingByte (k : Nat)
deriving DecidableEq, Repr

/-- One operand byte (format R of R61). -/
def oneOperand (mk : Byte → Instr) : List Byte → DecodeResult
  | []        => .missingByte 1
  | r :: rest => .ok (mk r) rest

/-- Two operand bytes (formats RR and RI of R61), read in ascending address order (R85). -/
def twoOperands (mk : Byte → Byte → Instr) : List Byte → DecodeResult
  | []             => .missingByte 1
  | [_]            => .missingByte 2
  | a :: b :: rest => .ok (mk a b) rest

/-- The operand bytes of a decoded mnemonic (R61, R85). -/
def decodeOperands : Mnemonic → List Byte → DecodeResult
  | .ldi,  bs => twoOperands .ldi bs
  | .prn,  bs => oneOperand .prn bs
  | .mul,  bs => twoOperands .mul bs
  | .add,  bs => twoOperands .add bs
  | .cmp,  bs => twoOperands .cmp bs
  | .push, bs => oneOperand .push bs
  | .pop,  bs => oneOperand .pop bs
  | .call, bs => oneOperand .call bs
  | .ret,  bs => .ok .ret bs
  | .jmp,  bs => oneOperand .jmp bs
  | .jeq,  bs => oneOperand .jeq bs
  | .jne,  bs => oneOperand .jne bs
  | .halt, bs => .ok .halt bs

/-- The decoder: the opcode byte first, then its operand bytes (R60, R65, R67). An unknown opcode has no length, and no
byte after it is looked at (R67). -/
def decode (m : OpcodeMap) : List Byte → DecodeResult
  | []       => .missingByte 0
  | op :: bs =>
    match decodeOpcode m op with
    | none   => .unknownOpcode op
    | some k => decodeOperands k bs

/-- An instruction's row of R64. -/
def Instr.mnemonic : Instr → Mnemonic
  | .ldi _ _ => .ldi
  | .prn _   => .prn
  | .mul _ _ => .mul
  | .add _ _ => .add
  | .cmp _ _ => .cmp
  | .push _  => .push
  | .pop _   => .pop
  | .call _  => .call
  | .ret     => .ret
  | .jmp _   => .jmp
  | .jeq _   => .jeq
  | .jne _   => .jne
  | .halt    => .halt

/-- An instruction's length in bytes (R60). -/
def Instr.bytes (i : Instr) : Nat := i.mnemonic.bytes

/-- The encoder: the bytes of an instruction at ascending addresses (R44, R61), opcode first. -/
def encode (m : OpcodeMap) : Instr → List Byte
  | .ldi r imm => [m.ldi, r, imm]
  | .prn r     => [m.prn, r]
  | .mul a b   => [m.mul, a, b]
  | .add a b   => [m.add, a, b]
  | .cmp a b   => [m.cmp, a, b]
  | .push r    => [m.push, r]
  | .pop r     => [m.pop, r]
  | .call r    => [m.call, r]
  | .ret       => [m.ret]
  | .jmp r     => [m.jmp, r]
  | .jeq r     => [m.jeq, r]
  | .jne r     => [m.jne, r]
  | .halt      => [m.halt]

/-- Byte `k` of a word numbered as spec/opcode_table.json numbers it: the first byte is bits 7..0, the second bits 15..8,
the third bits 23..16. -/
def tableByte (w k : Nat) : Byte := trunc8 (w / 256 ^ k)

/-- The three bytes, as many as the longest instruction has (R60), of a table word whose bits above `nbits` are zero. -/
def tableBytes (nbits w : Nat) : List Byte :=
  [tableByte (w % 2 ^ nbits) 0, tableByte (w % 2 ^ nbits) 1, tableByte (w % 2 ^ nbits) 2]

/-- The instruction the decoder reads from a word of spec/opcode_table.json, under the table's own map. -/
def decodeTableWord (nbits w : Nat) : Option Instr :=
  match decode OpcodeMap.ls8 (tableBytes nbits w) with
  | .ok i _          => some i
  | .unknownOpcode _ => none
  | .missingByte _   => none

end Sys2Proof
end

