-- ==== Sys2Proof/Machine/State.lean ====
section
/-! DEFINITION. The state of the core as one record (spec/10_state.md rule R35), the outcomes of a step that are no next
state, and the state after reset (R34). -/

namespace Sys2Proof.Machine

/-- The 256 cells of R30 as (address, byte) pairs in the canonical form `Memory.wf` of Ops.lean. -/
abbrev Memory := List Host.Cell

/-- The comparison flags E, L and G, three separate bits (R26, R28). -/
structure Flags where
  e : Bool
  l : Bool
  g : Bool
deriving DecidableEq, Repr

/-- The fatal fault causes of R162, each with the info that rule records. An address is an exact integer (R42). -/
inductive FaultCause where
  /-- MEM_RANGE, code 1: an address outside 0..255, by an opcode or operand fetch (R42, R82, R85). -/
  | memRange (addr : Nat)
  /-- REG_RANGE, code 2: a register operand byte above 7, and the address it stands at (R62, R86). -/
  | regRange (operand : Byte) (addr : Nat)
  /-- STACK_UNDERFLOW, code 3: a push with SP = 0; the SP (R131). -/
  | stackUnderflow (sp : Byte)
  /-- STACK_OVERFLOW, code 4: a pop increment with SP = 0xFF; the SP (R132). -/
  | stackOverflow (sp : Byte)
  /-- STACK_COLLISION, code 5: a push slot below STACK_FLOOR; the slot (R131). -/
  | stackCollision (slot : Byte)
  /-- ALU_UNSUPPORTED, code 6: reserved. Nothing in this core raises it: the ALU's operation is a closed enumeration (R114). -/
  | aluUnsupported
deriving DecidableEq, Repr

/-- The run status (R29). -/
inductive Status where
  | running
  | halted
  | unknown (op : Byte) (addr : PcWord)
  | fault (cause : FaultCause)
deriving DecidableEq, Repr

/-- The events of the output sequence (R31). -/
inductive Event where
  /-- `PRN(v)`, emitted by PRN (R101). -/
  | prn (v : Byte)
  /-- `UNKNOWN_INSTRUCTION(op, at)`, the report of an unknown opcode (R84). -/
  | unknownInstruction (op : Byte) (addr : PcWord)
deriving DecidableEq, Repr

/-- The machine's state: R35's record, and the configuration beside it. -/
structure State where
  /-- The general registers x[0] .. x[7] (R20); x[7] is SP (R21). -/
  x      : Vector Byte 8
  /-- The program counter (R25). -/
  pc     : PcWord
  /-- The comparison flags (R26). -/
  flags  : Flags
  /-- The memory (R30). -/
  mem    : Memory
  /-- The run status (R29). -/
  status : Status
  /-- The output event sequence, oldest event first (R31). -/
  out    : List Event
  /-- The configuration, which no step writes (R5, R35; DESIGN CHOICE, log 2). -/
  cfg    : Config
deriving DecidableEq, Repr

/-- Why a step answers no next state. The spec's own fatal faults are NOT here: a fatal fault is a next state, with the
status FAULT(cause, info) the spec gives it (R87, R164; log 1). -/
inductive Fault where
  /-- Raised by `step` alone, when the run status is not RUNNING: "the core takes no step" (R81). It carries the status,
  which is the outcome of the run (R92). Safe: the machine stops where the hardware has stopped. -/
  | notRunning (status : Status)
deriving DecidableEq, Repr

/-- What the model refuses by name. -/
inductive Refusal where
  /-- An instruction without a meaning: raised by an arm of `exec` only, and no arm raises it. Safe: the machine stops. -/
  | notModelled (mnemonic : String)
deriving DecidableEq, Repr

/-- Reset with its launch inputs (R34, R180): `INIT_REGS` for R0..R6 and `INIT_MEM`, the contents of every cell before
the image is loaded; x[7] = 0xF4, pc = 0, the flags in state NONE, RUNNING, and no output. -/
def State.resetWith (cfg : Config) (initRegs : Vector Byte 7) (initMem : Memory) : State where
  x      := initRegs.push spReset
  pc     := 0#9
  flags  := ⟨false, false, false⟩
  mem    := initMem
  status := .running
  out    := []
  cfg    := cfg

/-- The configuration of the reset state: the default opcode map (R64; PRESUMED, log 3) and the reference `STACK_FLOOR` 0,
"which means no collision check" (R5; log 4). -/
def referenceConfig : Config where
  opcodeMap  := OpcodeMap.ls8
  stackFloor := 0

/-- The state right after reset. DESIGN CHOICE: the launch inputs, which the spec leaves open, are R0..R6 = 0 (log 5) and
no listed cell (log 6). -/
def State.reset : State := State.resetWith referenceConfig (Vector.replicate 7 0#8) []

end Sys2Proof.Machine
end

