-- ==== Sys2Proof/Machine/Ops.lean ====
section
/-! DEFINITION. The shared operations over memory, registers, program counter, output and status that the meanings
are made of (spec/00_scope.md rule R7), raising a fatal fault among them. -/

namespace Sys2Proof.Machine

/-! ### The memory's canonical form -/

/-- What a cell that is not listed reads as. DESIGN CHOICE (log 6): the spec leaves `INIT_MEM` open (R34), and a reference
executor may use 0 (D5). -/
def unlistedByte : Byte := 0#8

/-- The byte at an address. -/
def Memory.read : Memory → Nat → Byte
  | [], _             => unlistedByte
  | (k, v) :: rest, a => if k = a then v else Memory.read rest a

/-- The canonical form: addresses strictly rising and in 0..255, no entry equal to what an unlisted cell reads as. -/
abbrev Memory.wf (m : Memory) : Prop :=
  m.Pairwise (fun c d => c.1 < d.1) ∧ ∀ c ∈ m, c.1 ≤ 255 ∧ c.2 ≠ unlistedByte

/-- List a byte at an address, in address order. -/
def Memory.insertAt (a : Nat) (v : Byte) : Memory → Memory
  | []             => [(a, v)]
  | (k, w) :: rest =>
    if a < k then (a, v) :: (k, w) :: rest
    else if a = k then (a, v) :: rest
    else (k, w) :: Memory.insertAt a v rest

/-- Store a byte at an address; a byte equal to what an unlisted cell reads as is not listed. -/
def Memory.write (m : Memory) (a : Nat) (v : Byte) : Memory :=
  if v = unlistedByte then m.filter (fun c => c.1 ≠ a) else Memory.insertAt a v m

/-! ### Registers, program counter, output, status -/

/-- `x[i]` (R7, R20). -/
def State.reg (s : State) (i : Fin 8) : Byte := s.x[i]

/-- `x[i] <- v` (R7, R20). No register is hardwired (R22). -/
def State.setReg (s : State) (i : Fin 8) (v : Byte) : State := { s with x := s.x.set i v }

/-- `SP`, another name for x[7] (R21). -/
def State.sp (s : State) : Byte := s.reg 7

/-- `SP <- v`: the same cell as x[7] (R21). -/
def State.setSp (s : State) (v : Byte) : State := s.setReg 7 v

/-- `pc <- at + len` (R88). From an `at` of 0..255 the sum is at most 258, so it does not wrap (R25; log 7). -/
def State.advance (s : State) (len : Nat) : State := { s with pc := s.pc + BitVec.ofNat 9 len }

/-- `pc <- zext_9(t)` (R146). -/
def State.jump (s : State) (t : Byte) : State := { s with pc := zext9 t }

/-- `emit(ev)`: the event joins the end of `out` (R7, R31). -/
def State.emit (s : State) (ev : Event) : State := { s with out := s.out ++ [ev] }

/-- `stop HALTED` (R7, R145): nothing else changes. -/
def State.stopHalted (s : State) : State := { s with status := .halted }

/-- `emit(UNKNOWN_INSTRUCTION(op, at)); stop UNKNOWN(op, at)`, with `at` the pc (R84). -/
def State.stopUnknown (s : State) (op : Byte) : State :=
  { s.emit (.unknownInstruction op s.pc) with status := .unknown op s.pc }

/-! ### Fatal faults: taking one -/

/-- What a fatal fault records and leaves (R87, R164): the status becomes FAULT(cause, info) and everything else, the pc
among it, stays as it was before the step. There is no handler, no saved state and no way back but a reset (R166, R167). -/
def State.raiseFault (s : State) (c : FaultCause) : State := { s with status := .fault c }

/-- Pseudocode that runs on a working copy and may raise (R7, R87). -/
abbrev Result := Except FaultCause

/-- The end of a step (R87): commit the working copy, or, if a line raised, commit nothing and take the fault from the
state before the step. -/
def commit (s : State) : Result State → Host.Outcome State Fault Refusal
  | .ok t    => .next t
  | .error c => .next (s.raiseFault c)

/-- Code numbers of the causes (R162; the spec's own choice D10; log 17). -/
def FaultCause.code : FaultCause → Nat
  | .memRange _       => 1
  | .regRange _ _     => 2
  | .stackUnderflow _ => 3
  | .stackOverflow _  => 4
  | .stackCollision _ => 5
  | .aluUnsupported   => 6

/-- Code numbers of the status values (R29; the spec's own choice D10; log 17). -/
def Status.code : Status → Nat
  | .running     => 0
  | .halted      => 1
  | .unknown _ _ => 2
  | .fault _     => 3

/-! ### Memory access -/

/-- `MemRead(a, 1)` (R42): an address above 255 raises MEM_RANGE and never wraps (R47). -/
def State.memRead (s : State) (a : Nat) : Result Byte :=
  if a > 255 then .error (.memRange a) else .ok (s.mem.read a)

/-- `MemWrite(a, 1, v)` (R43): stores `trunc8(v)`. -/
def State.memWrite (s : State) (a v : Nat) : Result State :=
  if a > 255 then .error (.memRange a) else .ok { s with mem := s.mem.write a (trunc8 v) }

/-- The bytes at addresses `a`, `a+1`, ... that exist, at most `n` of them. -/
def State.bytesAt (s : State) (a : Nat) : Nat → List Byte
  | 0     => []
  | n + 1 =>
    match s.memRead a with
    | .ok b    => b :: s.bytesAt (a + 1) n
    | .error _ => []

/-- The bytes a fetch may use: the opcode and up to two operand bytes from pc on (R60, R82, R85), as many as there are up
to address 255. Reading has no side effect (R41), so the bytes past the instruction's own are looked at freely. -/
def State.fetchBytes (s : State) : List Byte := s.bytesAt s.pc.toNat 3

/-! ### The stack -/

/-- `stack_push_slot()` (R131), shared by PUSH and CALL: the slot's address and the state with SP decremented. -/
def State.pushSlot (s : State) : Result (Byte × State) :=
  if s.sp = 0#8 then .error (.stackUnderflow s.sp)
  else if (s.sp - 1#8).toNat < s.cfg.stackFloor.val then .error (.stackCollision (s.sp - 1#8))
  else .ok (s.sp - 1#8, s.setSp (s.sp - 1#8))

/-- `stack_pop_read()` (R132), shared by POP and RET: the byte at the top of the stack. -/
def State.popRead (s : State) : Result Byte := s.memRead s.sp.toNat

/-- `stack_pop_release()` (R132), shared by POP and RET: SP <- SP + 1, which never wraps. -/
def State.popRelease (s : State) : Result State :=
  if s.sp = 0xFF#8 then .error (.stackOverflow s.sp) else .ok (s.setSp (s.sp + 1#8))

end Sys2Proof.Machine
end

