-- ==== Sys2Proof/Machine/Flags.lean ====
section
/-! DEFINITION. The flag computation and the comparison-flag state machine (spec/42_alu.md rule R113, spec/10_state.md
rules R26 and R27). -/

namespace Sys2Proof.Machine

/-- `alu_cmp(p, q)` (R113): the unsigned comparison of two bytes. -/
def aluCmp (p q : Byte) : Flags where
  e := p.toNat = q.toNat
  l := p.toNat < q.toNat
  g := p.toNat > q.toNat

/-- The four states of the flag state machine (R27). -/
inductive FlagState where
  | none | eq | lt | gt
deriving DecidableEq, Repr

/-- The (E, L, G) pattern of a flag state (R27's table). -/
def FlagState.flags : FlagState → Flags
  | .none => ⟨false, false, false⟩
  | .eq   => ⟨true, false, false⟩
  | .lt   => ⟨false, true, false⟩
  | .gt   => ⟨false, false, true⟩

/-- "Exactly one flag is set at a time" (R113): the state is EQ, LT or GT. -/
def Flags.exactlyOne (f : Flags) : Bool :=
  f == FlagState.flags .eq || f == FlagState.flags .lt || f == FlagState.flags .gt

/-- The flags are in one of the four states of R27; the patterns with two or more bits set cannot be reached. -/
def Flags.legal (f : Flags) : Bool := f == FlagState.flags .none || f.exactlyOne

end Sys2Proof.Machine
end

