-- ==== Sys2Proof/Machine/Operands.lean ====
section
/-! DEFINITION. The operand forms: a register index and an immediate (spec/30_encoding.md rules R62 and R63), and the
register validation of spec/40_engine.md rule R86. -/

namespace Sys2Proof.Machine

/-- Register operand number `k` (1 or 2) of the instruction at pc (R62, R86): a byte of 0..7 selects that register; any
other raises REG_RANGE with the byte and its address `at + k`. -/
def State.regOperand (s : State) (k : Nat) (r : Byte) : Result (Fin 8) :=
  if h : r.toNat ≤ 7 then .ok ⟨r.toNat, Nat.lt_succ_of_le h⟩ else .error (.regRange r (s.pc.toNat + k))

/-- The immediate operand (R63): the byte itself; every value is legal. -/
def immOperand (imm : Byte) : Byte := imm

/-- The register operand of formats R and RI, operand 1 (R86). -/
def State.oneReg (s : State) (r : Byte) : Result (Fin 8) := s.regOperand 1 r

/-- The register operands of format RR, operand 1 checked before operand 2 (R86). -/
def State.twoRegs (s : State) (a b : Byte) : Result (Fin 8 × Fin 8) := do
  let i ← s.regOperand 1 a
  let j ← s.regOperand 2 b
  pure (i, j)

end Sys2Proof.Machine
end

