-- ==== Sys2Proof/Machine/Alu.lean ====
section
/-! DEFINITION. The ALU and MUL, ADD and CMP (spec/42_alu.md). -/

namespace Sys2Proof.Machine

/-- The ALU's three operations, a closed enumeration fixed at decode (R110, R90): no other operation exists, so
ALU_UNSUPPORTED cannot arise (R114). -/
inductive AluOp where
  | add | multiply | compare
deriving DecidableEq, Repr

/-- `alu_add(p, q) = (p + q) mod 256` (R111). -/
def aluAdd (p q : Byte) : Byte := trunc8 (p.toNat + q.toNat)

/-- `alu_mul(p, q) = (p * q) mod 256` (R112). -/
def aluMul (p q : Byte) : Byte := trunc8 (p.toNat * q.toNat)

/-- The ALU applied to two registers (R110): ADD and MULTIPLY write x[a] and nothing else, COMPARE writes E, L and G and
nothing else. -/
def State.alu (s : State) (op : AluOp) (a b : Fin 8) : State :=
  match op with
  | .add      => s.setReg a (aluAdd (s.reg a) (s.reg b))
  | .multiply => s.setReg a (aluMul (s.reg a) (s.reg b))
  | .compare  => { s with flags := aluCmp (s.reg a) (s.reg b) }

/-- An ALU instruction, format RR: both registers validated, the operation, pc at + 3 (R115, R116, R117). -/
def aluInstr (op : AluOp) (a b : Byte) (s : State) : Host.Outcome State Fault Refusal :=
  commit s do
    let (i, j) ← s.twoRegs a b
    pure ((s.alu op i j).advance 3)

/-- MUL a, b (R115): x[a] <- alu_mul(x[a], x[b]). -/
def execMul (a b : Byte) (s : State) : Host.Outcome State Fault Refusal := aluInstr .multiply a b s

/-- ADD a, b (R116): x[a] <- alu_add(x[a], x[b]). -/
def execAdd (a b : Byte) (s : State) : Host.Outcome State Fault Refusal := aluInstr .add a b s

/-- CMP a, b (R117): (E, L, G) <- alu_cmp(x[a], x[b]). -/
def execCmp (a b : Byte) (s : State) : Host.Outcome State Fault Refusal := aluInstr .compare a b s

end Sys2Proof.Machine
end

