-- ==== Sys2Proof/Machine/Control.lean ====
section
/-! DEFINITION. CALL, RET, JMP, JEQ, JNE and HALT (spec/44_control.md). -/

namespace Sys2Proof.Machine

/-- CALL r (R140): push trunc8(at + 2), then pc <- zext_9(x[r]), the register read after the push (D12). -/
def execCall (r : Byte) (s : State) : Host.Outcome State Fault Refusal :=
  commit s do
    let i ← s.oneReg r
    let (slot, t) ← s.pushSlot
    let u ← t.memWrite slot.toNat (s.pc.toNat + 2)
    pure (u.jump (u.reg i))

/-- RET (R141): t <- mem[SP], SP <- SP + 1, pc <- zext_9(t). -/
def execRet (s : State) : Host.Outcome State Fault Refusal :=
  commit s do
    let t ← s.popRead
    let u ← s.popRelease
    pure (u.jump t)

/-- JMP r (R142): pc <- zext_9(x[r]). -/
def execJmp (r : Byte) (s : State) : Host.Outcome State Fault Refusal :=
  commit s do
    let i ← s.oneReg r
    pure (s.jump (s.reg i))

/-- A conditional jump (R143, R144): the register is validated whether or not the jump is taken. -/
def jumpIf (taken : Bool) (r : Byte) (s : State) : Host.Outcome State Fault Refusal :=
  commit s do
    let i ← s.oneReg r
    pure (if taken then s.jump (s.reg i) else s.advance 2)

/-- JEQ r (R143): jump if E = 1, else pc <- at + 2. -/
def execJeq (r : Byte) (s : State) : Host.Outcome State Fault Refusal := jumpIf s.flags.e r s

/-- JNE r (R144): jump if E = 0, else pc <- at + 2. -/
def execJne (r : Byte) (s : State) : Host.Outcome State Fault Refusal := jumpIf (!s.flags.e) r s

/-- HALT (R145): stop HALTED; the pc keeps the HALT's address and nothing else changes. -/
def execHalt (s : State) : Host.Outcome State Fault Refusal := .next s.stopHalted

end Sys2Proof.Machine
end

