-- ==== Sys2Proof/Machine/LoadOutput.lean ====
section
/-! DEFINITION. LDI and PRN (spec/41_load_output.md). -/

namespace Sys2Proof.Machine

/-- LDI r, imm (R100): x[r] <- imm. -/
def execLdi (r imm : Byte) (s : State) : Host.Outcome State Fault Refusal :=
  commit s do
    let i ← s.oneReg r
    pure ((s.setReg i (immOperand imm)).advance 3)

/-- PRN r (R101): emit(PRN(x[r])). -/
def execPrn (r : Byte) (s : State) : Host.Outcome State Fault Refusal :=
  commit s do
    let i ← s.oneReg r
    pure ((s.emit (.prn (s.reg i))).advance 2)

end Sys2Proof.Machine
end

