-- ==== Sys2Proof/Machine/Stack.lean ====
section
/-! DEFINITION. PUSH and POP (spec/43_stack.md). -/

namespace Sys2Proof.Machine

/-- PUSH r (R133): the value is read before SP changes (C4), then pushed. -/
def execPush (r : Byte) (s : State) : Host.Outcome State Fault Refusal :=
  commit s do
    let i ← s.oneReg r
    let v := s.reg i
    let (slot, t) ← s.pushSlot
    let u ← t.memWrite slot.toNat v.toNat
    pure (u.advance 2)

/-- POP r (R134): x[r] <- mem[SP], then SP <- SP + 1; the increment reads x[7] after the write, so POP R7 leaves the
popped value plus 1 (C4). -/
def execPop (r : Byte) (s : State) : Host.Outcome State Fault Refusal :=
  commit s do
    let i ← s.oneReg r
    let v ← s.popRead
    let t ← (s.setReg i v).popRelease
    pure (t.advance 2)

end Sys2Proof.Machine
end

