-- ==== Sys2Proof/Machine/Engine.lean ====
section
/-! DEFINITION. Fetching and decoding the instruction at pc, and running it: the body of a step that is enabled
(spec/40_engine.md rules R82 to R89). -/

namespace Sys2Proof.Machine

/-- One enabled step (R89), in the order of R165: MEM_RANGE on the opcode fetch; an opcode outside the map stops the run
as UNKNOWN; MEM_RANGE on the first operand byte past address 255; else the decoded instruction runs, which validates
its register operands first. -/
def State.runInstruction (s : State) : Host.Outcome State Fault Refusal :=
  match decode s.cfg.opcodeMap s.fetchBytes with
  | .missingByte k    => .next (s.raiseFault (.memRange (s.pc.toNat + k)))
  | .unknownOpcode op => .next (s.stopUnknown op)
  | .ok i _           => exec i s

/-- A step by the run status (R81): enabled only while RUNNING; in a terminal status the core takes no step. -/
def State.stepByStatus (s : State) : Host.Outcome State Fault Refusal :=
  match s.status with
  | .running      => s.runInstruction
  | .halted       => .fault (.notRunning .halted)
  | .unknown op a => .fault (.notRunning (.unknown op a))
  | .fault c      => .fault (.notRunning (.fault c))

/-- Store bytes at ascending addresses from `a`; an address above 255 does not exist and takes none. -/
def State.placeBytes (s : State) (a : Nat) : List Byte → State
  | []      => s
  | b :: bs =>
    match s.memWrite a b.toNat with
    | .ok t    => t.placeBytes (a + 1) bs
    | .error _ => s

/-- The host's placement of a table word for the very next step: the bytes at pc, under the table's own map, with the
engine running. It stands for the load of a program (R55; log 8). -/
def State.placeWord (s : State) (nbits w : Nat) : State :=
  { s.placeBytes s.pc.toNat (tableBytes nbits w) with
    status := .running
    cfg := { s.cfg with opcodeMap := OpcodeMap.ls8 } }

end Sys2Proof.Machine
end

