-- ==== Sys2Proof/Machine/Step.lean ====
section
/-! DEFINITION. The step (spec/40_engine.md rules R80, R81 and R89). -/

namespace Sys2Proof.Machine

/-- One step of the core: one instruction, atomically (R80), while the run status is RUNNING (R81). -/
def step (s : State) : Host.Outcome State Fault Refusal := s.stepByStatus

/-- `s` with a word of spec/opcode_table.json where `step` fetches its next instruction (log 8). -/
def State.withFetchWord (s : State) (nbits w : Nat) : State := s.placeWord nbits w

end Sys2Proof.Machine
end

