-- ==== Sys2Proof/Machine/HostInterface.lean ====
section
/-! DEFINITION. The host's operations on the core (spec/40_engine.md rule R91): reset, load, step, observe and receive, each allowed
when that rule allows it, and the boot order (spec/20_memory.md rule R55, spec/70_reset_and_hazards.md rules R180 and R182). -/

namespace Sys2Proof.Machine

/-- How far the host has brought the core since its last reset. R55 and R91 tell these apart, and R35's record of the core's own state
holds nothing that does, so this stands beside it (DESIGN CHOICE, log 9). -/
inductive HostPhase where
  /-- "in reset, before the first step" (R55): the host may load. -/
  | loading
  /-- The first step has been taken: "the host writes no state" (R55, R91). -/
  | started
  /-- A load was refused with this cause, "and the run does not start" (R55). -/
  | loadRefused (cause : FaultCause)
deriving DecidableEq, Repr

/-- The core and the host's side of it. -/
structure Session where
  /-- The core. -/
  core     : State
  /-- What the host has done since the last reset. -/
  phase    : HostPhase
  /-- How many events of `out` the host has received since the last reset (R31, R91). -/
  received : Nat
deriving DecidableEq, Repr

/-- The host's operations of R91 that are one act each. `run` is the steps to the end of a run: `RunsTo` in Safety.lean. -/
inductive HostOp where
  /-- With the launch inputs `INIT_REGS` and `INIT_MEM`. -/
  | reset (initRegs : Vector Byte 7) (initMem : Memory)
  /-- `load(a, b)`. -/
  | load (a b : Nat)
  | step
  | observe
  | receive
deriving DecidableEq, Repr

/-- Reset, in any status (R91, R180): all state is replaced (R173). The configuration is no state (R35) and stays. -/
def State.hostReset (s : State) (initRegs : Vector Byte 7) (initMem : Memory) : State :=
  State.resetWith s.cfg initRegs initMem

/-- The machine as it is created (R180): in reset, with nothing loaded. -/
def Session.create (cfg : Config) (initRegs : Vector Byte 7) (initMem : Memory) : Session :=
  ⟨State.resetWith cfg initRegs initMem, .loading, 0⟩

/-- `reset`, allowed "at any time" (R91). -/
def Session.reset (s : Session) (initRegs : Vector Byte 7) (initMem : Memory) : Session :=
  ⟨s.core.hostReset initRegs initMem, .loading, 0⟩

/-- `load(a, b)`, allowed only "after reset, before the first step" (R91): "stores trunc8(b) at mem[a]"; above 255 it "is refused as
MEM_RANGE, and the run does not start" (R55). -/
def Session.load (s : Session) (a b : Nat) : Option Session :=
  match s.phase with
  | .loading =>
    match s.core.memWrite a b with
    | .ok t    => some { s with core := t }
    | .error c => some { s with phase := .loadRefused c }
  | .started       => none
  | .loadRefused _ => none

/-- The core's step, where one is enabled (R81, R89). -/
def Session.takeStep (s : Session) : Option Session :=
  match Machine.step s.core with
  | .next t    => some { s with core := t, phase := .started }
  | .fault _   => none
  | .refused _ => none

/-- `step`, allowed while the status is RUNNING (R91), unless the run does not start because a load was refused (R55). -/
def Session.step (s : Session) : Option Session :=
  match s.phase with
  | .loadRefused _ => none
  | .loading       => s.takeStep
  | .started       => s.takeStep

/-- What `observe` reads (R91): x, pc, the flags, memory, the status and `out`, each a field of the core's state. -/
def Session.observed (s : Session) : State := s.core

/-- The event `receive` takes next: the oldest of `out` that the host has not received (R31, R91). -/
def Session.nextEvent (s : Session) : Option Event := s.core.out[s.received]?

/-- `receive`: an event emitted is taken, in order (R91). Nothing of the core changes. -/
def Session.receive (s : Session) : Option Session :=
  match s.nextEvent with
  | some _ => some { s with received := s.received + 1 }
  | none   => none

/-- An operation of the host; none where R91 does not allow it. -/
def Session.perform (s : Session) : HostOp → Option Session
  | .reset initRegs initMem => some (s.reset initRegs initMem)
  | .load a b               => s.load a b
  | .step                   => s.step
  | .observe                => some s
  | .receive                => s.receive

/-- Operations one after another, each of them allowed. -/
def Session.performAll (s : Session) : List HostOp → Option Session
  | []        => some s
  | op :: ops =>
    match s.perform op with
    | some t => t.performAll ops
    | none   => none

/-- The image's bytes loaded at ascending addresses from `a` (R54, R55), up to the first that is refused. -/
def Session.loadImage (s : Session) (a : Nat) : List Nat → Session
  | []      => s
  | b :: bs =>
    match s.load a b with
    | some t => t.loadImage (a + 1) bs
    | none   => s

/-- Boot (R182): reset with the launch inputs, then the image from address 0. The first step is then taken at pc = 0. -/
def Session.boot (cfg : Config) (initRegs : Vector Byte 7) (initMem : Memory) (image : List Nat) : Session :=
  (Session.create cfg initRegs initMem).loadImage 0 image

end Sys2Proof.Machine
end

