-- ==== Sys2Proof/Safety.lean ====
section
/-! DEFINITION. What holds of the core between steps: the invariant of a run, the states a run reaches, and the names the
statements use for what stays the same (spec/10_state.md rules R25 to R31, spec/60_exceptions.md rule R162). -/

namespace Sys2Proof.Machine

/-- No UNKNOWN_INSTRUCTION report among the events (R31). -/
def noReport (evs : List Event) : Prop := ∀ op a, Event.unknownInstruction op a ∉ evs

/-- What R162 says of a recorded fault, read off the state it leaves, which is the state before the faulting step (R164).
A MEM_RANGE address is 256: DEDUCED (log 18). -/
def FaultCause.agrees (s : State) : FaultCause → Prop
  | .memRange a        => a = 256 ∧ s.pc.toNat ≤ 256
  | .regRange r a      => 7 < r.toNat ∧ (a = s.pc.toNat + 1 ∨ a = s.pc.toNat + 2) ∧ a ≤ 255 ∧ s.mem.read a = r
  | .stackUnderflow v  => v = 0#8 ∧ s.sp = 0#8
  | .stackOverflow v   => v = 0xFF#8 ∧ (s.sp = 0xFF#8 ∨ s.mem.read s.sp.toNat = 0xFF#8)
  | .stackCollision v  => s.sp ≠ 0#8 ∧ v = s.sp - 1#8 ∧ v.toNat < s.cfg.stackFloor.val
  | .aluUnsupported    => False

/-- The run status agrees with the rest of the state (R29): HALTED at a HALT opcode; UNKNOWN(op, at) at an opcode outside
the map, reported last on `out` (R84); FAULT with a cause that holds of the state; and no other report on `out`. -/
def State.statusAgrees (s : State) : Prop :=
  match s.status with
  | .running      => noReport s.out
  | .halted       => noReport s.out ∧ s.pc.toNat ≤ 255 ∧ s.mem.read s.pc.toNat = s.cfg.opcodeMap.halt
  | .unknown op a =>
      a = s.pc ∧ s.pc.toNat ≤ 255 ∧ s.mem.read s.pc.toNat = op ∧ (∀ k, s.cfg.opcodeMap.byteOf k ≠ op) ∧
        ∃ evs, s.out = evs ++ [.unknownInstruction op a] ∧ noReport evs
  | .fault c      => noReport s.out ∧ c.agrees s

/-- The invariant of a run: it holds after every boot, and every step keeps it. -/
structure State.Inv (s : State) : Prop where
  /-- The memory is in canonical form, within 0..255 (R30). -/
  memWf : s.mem.wf
  /-- "Reachable values are 0..256" (R25, D3). -/
  pcRange : s.pc.toNat ≤ 256
  /-- The flags are in one of the four states of R27. -/
  flagsLegal : s.flags.legal = true
  /-- The opcode map gives 13 distinct bytes (R64). -/
  mapValid : s.cfg.opcodeMap.valid = true
  /-- The run status agrees with the state (R29). -/
  statusOk : s.statusAgrees

/-- The states a run from `s` reaches by steps (R91 run, R92). -/
inductive Reaches (s : State) : State → Prop where
  | refl : Reaches s s
  | tail {t u : State} : Reaches s t → step t = .next u → Reaches s u

/-- `run` (R91): steps are taken until the status is not RUNNING; `t` is where the run ends (R92). -/
def RunsTo (s t : State) : Prop := s.status = .running ∧ Reaches s t ∧ t.status ≠ .running

/-- Until the first step the core is as a reset leaves it (R34), but for what has been loaded into memory (R55). -/
def State.inReset (s : State) : Prop := ∃ initRegs, s = State.resetWith s.cfg initRegs s.mem

/-- What holds of the core and the host's side between operations: it holds after every boot, and every operation keeps it. -/
structure Session.Inv (s : Session) : Prop where
  /-- The invariant of the core. -/
  core : s.core.Inv
  /-- Before the first step, or where the run does not start, the core is in reset (R55). -/
  inReset : s.phase ≠ .started → s.core.inReset
  /-- A load is refused as MEM_RANGE, at an address above 255 (R55). -/
  refusedAs : ∀ c, s.phase = .loadRefused c → ∃ a, 255 < a ∧ c = .memRange a
  /-- No more events are received than were emitted (R91). -/
  received : s.received ≤ s.core.out.length

/-- The operation is no reset. -/
def HostOp.isReset : HostOp → Bool
  | .reset _ _ => true
  | .load _ _  => false
  | .step      => false
  | .observe   => false
  | .receive   => false

/-! ### What stays the same -/

/-- Every register but those listed holds what it held. -/
def sameRegsBut (w : List (Fin 8)) (s t : State) : Prop := ∀ j, j ∉ w → t.reg j = s.reg j

/-- Every byte of memory but those at the listed addresses reads as it read. -/
def sameMemBut (w : List Nat) (s t : State) : Prop := ∀ a, a ∉ w → t.mem.read a = s.mem.read a

/-- The states agree outside registers, pc and memory: flags, run status, output and configuration. -/
def sameRest (s t : State) : Prop :=
  t.flags = s.flags ∧ t.status = s.status ∧ t.out = s.out ∧ t.cfg = s.cfg

end Sys2Proof.Machine
end

