-- ==== Sys2Proof/Certificates/Slice0/Obligations.lean ====
section
/-! DEFINITION. The statements for the provers, each from the rules of spec/ its docstring names.

A statement whose docstring says "the model's choice" rests, in the clause named, on an entry of notes/assumptions, or on a
decision D<n> the spec marks as its own (spec/92_eei_decisions.md). The hypothesis `r.toNat = i.val` says that the operand byte `r`
names the register `i` (R62); a register operand of 8..255 is the subject of RegisterOperandTraps. A pc such as `s.pc + 3#9` is a 9-bit
sum, exact for every pc a step runs an instruction from (R25, R82); PcAfterStep states it without wrap. -/

open Sys2Proof Sys2Proof.Machine

/-! ### Encoding (spec/30_encoding.md) -/

/-- R64, opcode_table.json: one word of every row, its bytes written out in binary, first byte lowest. PRESUMED (log 3): the opcode
values are the spec's D1. -/
def Obligations.SampleWordsDecode : Prop :=
  decodeTableWord 24 0b000010000000000010000010 = some (.ldi 0#8 8#8) ∧
  decodeTableWord 16 0b0000010001000111 = some (.prn 4#8) ∧
  decodeTableWord 24 0b000000010000000010100010 = some (.mul 0#8 1#8) ∧
  decodeTableWord 24 0b000000010000011110100000 = some (.add 7#8 1#8) ∧
  decodeTableWord 24 0b000000100000010110100111 = some (.cmp 5#8 2#8) ∧
  decodeTableWord 16 0b0000001001000101 = some (.push 2#8) ∧
  decodeTableWord 16 0b0000001101000110 = some (.pop 3#8) ∧
  decodeTableWord 16 0b0000000101010000 = some (.call 1#8) ∧
  decodeTableWord 8 0b00010001 = some .ret ∧
  decodeTableWord 16 0b0000001001010100 = some (.jmp 2#8) ∧
  decodeTableWord 16 0b0000011101010101 = some (.jeq 7#8) ∧
  decodeTableWord 16 0b0000100101010110 = some (.jne 9#8) ∧
  decodeTableWord 8 0b00000001 = some .halt

/-- R61, R64, R65: under every map of 13 distinct bytes, decoding an instruction's encoding gives the instruction back, with every
operand byte at every value, and leaves the bytes after it. -/
def Obligations.DecodeOfEncode : Prop :=
  ∀ m : OpcodeMap, m.valid = true → ∀ (i : Instr) (rest : List Byte), decode m (encode m i ++ rest) = .ok i rest

/-- R61, R65: bytes that decode to an instruction are its encoding and what follows it, under any map. -/
def Obligations.EncodeOfDecode : Prop :=
  ∀ (m : OpcodeMap) (bs : List Byte) (i : Instr) (rest : List Byte), decode m bs = .ok i rest → bs = encode m i ++ rest

/-- R65, R66: an opcode byte is rejected exactly when it is none of the map's 13, whatever follows it, and under every map of 13
distinct bytes 243 byte values are rejected. -/
def Obligations.IllegalOpcodesAre243 : Prop :=
  ∀ m : OpcodeMap, m.valid = true →
    (∀ (op : Byte) (bs : List Byte), decode m (op :: bs) = .unknownOpcode op ↔ ∀ k, m.byteOf k ≠ op) ∧
    ((List.range 256).filter fun n => (decodeOpcode m (BitVec.ofNat 8 n)).isNone).length = 243

/-- R60, R67: the length is 1, 2 or 3 bytes, and the opcode byte alone fixes it. -/
def Obligations.LengthFixedByOpcode : Prop :=
  ∀ (m : OpcodeMap) (op : Byte) (bs bs' : List Byte) (i i' : Instr) (rest rest' : List Byte),
    decode m (op :: bs) = .ok i rest → decode m (op :: bs') = .ok i' rest' →
      i.mnemonic = i'.mnemonic ∧ i.bytes = i'.bytes ∧ 1 ≤ i.bytes ∧ i.bytes ≤ 3 ∧
      bs.length + 1 = i.bytes + rest.length

/-! ### The step (spec/40_engine.md) -/

/-- R89: a step runs the instruction decoded at pc, and adds nothing around it: the meaning advances pc itself. -/
def Obligations.StepRunsDecoded : Prop :=
  ∀ (s : State) (i : Instr) (rest : List Byte), s.status = .running →
    decode s.cfg.opcodeMap s.fetchBytes = .ok i rest → step s = exec i s

/-- R44, R85, R89: where memory holds the encoding of an instruction from pc on, at addresses up to 255, a step runs it. -/
def Obligations.StepRunsEncodedBytes : Prop :=
  ∀ (s : State) (i : Instr), s.status = .running → s.cfg.opcodeMap.valid = true → s.pc.toNat + i.bytes ≤ 256 →
    (∀ k, k < i.bytes → (encode s.cfg.opcodeMap i)[k]? = some (s.mem.read (s.pc.toNat + k))) →
      step s = exec i s

/-- Log 8 (the model's choice of how a word is placed): the step after withFetchWord runs the word's instruction, wherever it fits. -/
def Obligations.PlacedWordRuns : Prop :=
  ∀ (s : State) (nbits w : Nat) (i : Instr), decodeTableWord nbits w = some i → s.pc.toNat + i.bytes ≤ 256 →
    step (s.withFetchWord nbits w) = exec i (s.withFetchWord nbits w)

/-- R82: an opcode fetch above 255 raises MEM_RANGE with the address. That nothing else changes is the spec's own D8. -/
def Obligations.OpcodeFetchOutOfRange : Prop :=
  ∀ s : State, s.status = .running → 255 < s.pc.toNat →
    step s = .next { s with status := .fault (.memRange s.pc.toNat) }

/-- R84: an opcode byte that no mnemonic has stops the run as UNKNOWN, reports it, and changes nothing else. What the report carries is
the spec's own D11. -/
def Obligations.UnknownOpcodeStops : Prop :=
  ∀ s : State, s.status = .running → s.pc.toNat ≤ 255 →
    (∀ k, s.cfg.opcodeMap.byteOf k ≠ s.mem.read s.pc.toNat) →
      step s = .next { s with
        status := .unknown (s.mem.read s.pc.toNat) s.pc
        out := s.out ++ [.unknownInstruction (s.mem.read s.pc.toNat) s.pc] }

/-- R85, R165: an instruction whose bytes would extend past address 255 raises MEM_RANGE at the first byte out of range, before its
register operands are looked at. That this address is always 256 is DEDUCED (log 18; R162 lists 256 or 257), that nothing else changes
is the spec's own D8, the order D9. -/
def Obligations.OperandFetchOutOfRange : Prop :=
  ∀ (s : State) (k : Mnemonic), s.status = .running → s.pc.toNat ≤ 255 →
    decodeOpcode s.cfg.opcodeMap (s.mem.read s.pc.toNat) = some k → 256 < s.pc.toNat + k.bytes →
      step s = .next { s with status := .fault (.memRange 256) }

/-- R81, R94: a step of a running core has a next state, whatever the memory holds; in a terminal status no step is taken, and the
machine answers with that status (the model's choice, log 1). -/
def Obligations.StepEnabledExactlyWhileRunning : Prop :=
  (∀ s : State, s.status = .running → ∃ t, step s = .next t) ∧
  (∀ s : State, s.status ≠ .running → step s = .fault (.notRunning s.status))

/-! ### Faults and stops (spec/60_exceptions.md) -/

/-- R62, R86: the first register operand above 7, in operand order, raises REG_RANGE with the byte and its address, in every
instruction, before any of its effects and its stack checks. That nothing else changes is the spec's own D8. -/
def Obligations.RegisterOperandTraps : Prop :=
  ∀ (s : State) (i : Instr) (k : Nat) (r : Byte), i.regOperands[k]? = some r → 7 < r.toNat →
    (∀ (j : Nat) (q : Byte), j < k → i.regOperands[j]? = some q → q.toNat ≤ 7) →
      exec i s = .next { s with status := .fault (.regRange r (s.pc.toNat + k + 1)) }

/-- R131, R133, R140: PUSH and CALL with SP = 0 raise STACK_UNDERFLOW, and with a slot below STACK_FLOOR STACK_COLLISION; SP and memory
stay. The detection of a collision is the spec's own D7, that nothing else changes its D8. -/
def Obligations.PushAndCallBounds : Prop :=
  ∀ (s : State) (r : Byte) (i : Fin 8), r.toNat = i.val →
    (s.sp = 0#8 →
      exec (.push r) s = .next { s with status := .fault (.stackUnderflow 0#8) } ∧
      exec (.call r) s = .next { s with status := .fault (.stackUnderflow 0#8) }) ∧
    (s.sp ≠ 0#8 → (s.sp - 1#8).toNat < s.cfg.stackFloor.val →
      exec (.push r) s = .next { s with status := .fault (.stackCollision (s.sp - 1#8)) } ∧
      exec (.call r) s = .next { s with status := .fault (.stackCollision (s.sp - 1#8)) })

/-- R132, R134, R141: POP and RET raise STACK_OVERFLOW when the SP to be incremented is 0xFF, which for POP R7 is the popped value;
nothing else changes. The overflow is the spec's own D6, the order for R7 its D12, that nothing else changes its D8. -/
def Obligations.PopAndRetBounds : Prop :=
  (∀ (s : State) (r : Byte) (i : Fin 8), r.toNat = i.val → i ≠ 7 → s.sp = 0xFF#8 →
    exec (.pop r) s = .next { s with status := .fault (.stackOverflow 0xFF#8) }) ∧
  (∀ s : State, s.mem.read s.sp.toNat = 0xFF#8 →
    exec (.pop 7#8) s = .next { s with status := .fault (.stackOverflow 0xFF#8) }) ∧
  (∀ s : State, s.sp = 0xFF#8 →
    exec .ret s = .next { s with status := .fault (.stackOverflow 0xFF#8) })

/-- R163: the statuses each instruction can leave a running core in, each fault with its info (R162) and under its condition: REG_RANGE
for operand 1, or for operand 1 and then 2 of MUL, ADD and CMP, with that byte and its address; the stack faults of PUSH, POP, CALL and
RET. The order of the checks is the spec's own D9 (log 13), the overflow of a pop its D6 (log 11), the floor its D7. That for POP R7 it is
the popped byte, not the old SP, that must be 0xFF is R134's faults and C4, by the spec's own D12 (log 14). -/
def Obligations.OutcomesPerInstruction : Prop :=
  ∀ (s t : State) (i : Instr), s.status = .running → exec i s = .next t →
    match i with
    | .ldi r _ => t.status = .running ∨ (7 < r.toNat ∧ t.status = .fault (.regRange r (s.pc.toNat + 1)))
    | .prn r   => t.status = .running ∨ (7 < r.toNat ∧ t.status = .fault (.regRange r (s.pc.toNat + 1)))
    | .mul a b => t.status = .running ∨ (7 < a.toNat ∧ t.status = .fault (.regRange a (s.pc.toNat + 1))) ∨
        (a.toNat ≤ 7 ∧ 7 < b.toNat ∧ t.status = .fault (.regRange b (s.pc.toNat + 2)))
    | .add a b => t.status = .running ∨ (7 < a.toNat ∧ t.status = .fault (.regRange a (s.pc.toNat + 1))) ∨
        (a.toNat ≤ 7 ∧ 7 < b.toNat ∧ t.status = .fault (.regRange b (s.pc.toNat + 2)))
    | .cmp a b => t.status = .running ∨ (7 < a.toNat ∧ t.status = .fault (.regRange a (s.pc.toNat + 1))) ∨
        (a.toNat ≤ 7 ∧ 7 < b.toNat ∧ t.status = .fault (.regRange b (s.pc.toNat + 2)))
    | .push r  => t.status = .running ∨
        (7 < r.toNat ∧ t.status = .fault (.regRange r (s.pc.toNat + 1))) ∨
        (r.toNat ≤ 7 ∧ s.sp = 0#8 ∧ t.status = .fault (.stackUnderflow 0#8)) ∨
        (r.toNat ≤ 7 ∧ s.sp ≠ 0#8 ∧ (s.sp - 1#8).toNat < s.cfg.stackFloor.val ∧
          t.status = .fault (.stackCollision (s.sp - 1#8)))
    | .pop r   => t.status = .running ∨
        (7 < r.toNat ∧ t.status = .fault (.regRange r (s.pc.toNat + 1))) ∨
        (r.toNat ≤ 7 ∧ (if r = 7#8 then s.mem.read s.sp.toNat else s.sp) = 0xFF#8 ∧
          t.status = .fault (.stackOverflow 0xFF#8))
    | .call r  => t.status = .running ∨
        (7 < r.toNat ∧ t.status = .fault (.regRange r (s.pc.toNat + 1))) ∨
        (r.toNat ≤ 7 ∧ s.sp = 0#8 ∧ t.status = .fault (.stackUnderflow 0#8)) ∨
        (r.toNat ≤ 7 ∧ s.sp ≠ 0#8 ∧ (s.sp - 1#8).toNat < s.cfg.stackFloor.val ∧
          t.status = .fault (.stackCollision (s.sp - 1#8)))
    | .ret     => t.status = .running ∨ (s.sp = 0xFF#8 ∧ t.status = .fault (.stackOverflow 0xFF#8))
    | .jmp r   => t.status = .running ∨ (7 < r.toNat ∧ t.status = .fault (.regRange r (s.pc.toNat + 1)))
    | .jeq r   => t.status = .running ∨ (7 < r.toNat ∧ t.status = .fault (.regRange r (s.pc.toNat + 1)))
    | .jne r   => t.status = .running ∨ (7 < r.toNat ∧ t.status = .fault (.regRange r (s.pc.toNat + 1)))
    | .halt    => t.status = .halted

/-- R87, R164, R114: a step that ends in a fault commits nothing (the spec's own D8): only the status changes. And the cause is never
ALU_UNSUPPORTED. -/
def Obligations.FaultsArePrecise : Prop :=
  ∀ (s t : State) (c : FaultCause), step s = .next t → t.status = .fault c →
    t = { s with status := .fault c } ∧ c ≠ .aluUnsupported

/-- R83, R145, R165: a step halts exactly when the opcode at pc is HALT's, whatever bytes follow and even at address 255, and nothing but
the status changes. That the pc stays is an inference the spec marks as its own (R145). -/
def Obligations.HaltsExactlyAtHalt : Prop :=
  ∀ s t : State, step s = .next t →
    (t.status = .halted ↔ s.pc.toNat ≤ 255 ∧ s.mem.read s.pc.toNat = s.cfg.opcodeMap.halt) ∧
    (t.status = .halted → t = { s with status := .halted })

/-! ### Whole-machine rules -/

/-- R88, R87: the pc after a step. An instruction that assigns pc sets it to its target; every other that commits advances it by its
length, without wrap, to at most 256; a stop or a fault leaves it. That a fault leaves pc is the spec's own D8 (log 12), that CALL reads
its target after the push its D12 (log 14), the width of pc its D3 (log 7); that HALT leaves pc is an inference the spec marks as its own
(R145). -/
def Obligations.PcAfterStep : Prop :=
  (∀ (s t : State) (i : Instr) (rest : List Byte), decode s.cfg.opcodeMap s.fetchBytes = .ok i rest →
    step s = .next t → t.status = .running →
      t.pc.toNat ≤ 256 ∧
      match i with
      | .ldi _ _ => t.pc.toNat = s.pc.toNat + 3
      | .prn _   => t.pc.toNat = s.pc.toNat + 2
      | .mul _ _ => t.pc.toNat = s.pc.toNat + 3
      | .add _ _ => t.pc.toNat = s.pc.toNat + 3
      | .cmp _ _ => t.pc.toNat = s.pc.toNat + 3
      | .push _  => t.pc.toNat = s.pc.toNat + 2
      | .pop _   => t.pc.toNat = s.pc.toNat + 2
      | .call r  => ∃ j : Fin 8, r.toNat = j.val ∧ t.pc.toNat = (t.reg j).toNat
      | .ret     => t.pc.toNat = (s.mem.read s.sp.toNat).toNat
      | .jmp r   => ∃ j : Fin 8, r.toNat = j.val ∧ t.pc.toNat = (s.reg j).toNat
      | .jeq r   => ∃ j : Fin 8, r.toNat = j.val ∧
          t.pc.toNat = if s.flags.e = true then (s.reg j).toNat else s.pc.toNat + 2
      | .jne r   => ∃ j : Fin 8, r.toNat = j.val ∧
          t.pc.toNat = if s.flags.e = false then (s.reg j).toNat else s.pc.toNat + 2
      | .halt    => False) ∧
  (∀ s t : State, step s = .next t → t.status ≠ .running → t.pc = s.pc)

/-- R26, R23's reads column: CMP alone writes the flags, all three together; E is read by JEQ and JNE, and by nothing else: any other step
is the same under other flags, but that it keeps the flags it was given; nothing reads L or G, so changing them changes nothing else in
any step; and all three are 0 at reset. -/
def Obligations.FlagBits : Prop :=
  (∀ (s t : State) (i : Instr), (∀ a b, i ≠ .cmp a b) → exec i s = .next t → t.flags = s.flags) ∧
  (∀ (s : State) (a b : Byte) (i j : Fin 8), a.toNat = i.val → b.toNat = j.val →
    ∃ t, exec (.cmp a b) s = .next t ∧ t.flags = aluCmp (s.reg i) (s.reg j)) ∧
  (∀ (s : State) (r : Byte) (i : Fin 8), r.toNat = i.val → ∃ t u,
    exec (.jeq r) s = .next t ∧ exec (.jne r) s = .next u ∧
    t.pc = (if s.flags.e = true then zext9 (s.reg i) else s.pc + 2#9) ∧
    u.pc = (if s.flags.e = true then s.pc + 2#9 else zext9 (s.reg i))) ∧
  (∀ (s t : State) (f : Flags), (∀ r rest, decode s.cfg.opcodeMap s.fetchBytes ≠ .ok (.jeq r) rest ∧
      decode s.cfg.opcodeMap s.fetchBytes ≠ .ok (.jne r) rest) → step s = .next t →
    ∃ u, step { s with flags := f } = .next u ∧
      u.x = t.x ∧ u.pc = t.pc ∧ u.mem = t.mem ∧ u.status = t.status ∧ u.out = t.out ∧ u.cfg = t.cfg ∧
      (u.flags = t.flags ∨ u.flags = f ∧ t.flags = s.flags)) ∧
  (∀ (s t : State) (l g : Bool), step s = .next t →
    ∃ u, step { s with flags := ⟨s.flags.e, l, g⟩ } = .next u ∧ u.flags.e = t.flags.e ∧
      u.x = t.x ∧ u.pc = t.pc ∧ u.mem = t.mem ∧ u.status = t.status ∧ u.out = t.out ∧ u.cfg = t.cfg) ∧
  (∀ (cfg : Config) (regs : Vector Byte 7) (mem : Memory),
    (State.resetWith cfg regs mem).flags = ⟨false, false, false⟩)

/-- R27: the flag state machine. Reset enters NONE; from any state CMP moves to EQ, LT or GT by its operands; every other step leaves the
state; once a comparison has been made NONE is never entered again; and the patterns with two or more bits are never reached. -/
def Obligations.FlagStateMachine : Prop :=
  (∀ (cfg : Config) (regs : Vector Byte 7) (mem : Memory),
    (State.resetWith cfg regs mem).flags = FlagState.flags .none) ∧
  (∀ (s : State) (a b : Byte) (i j : Fin 8), a.toNat = i.val → b.toNat = j.val →
    ∃ t, exec (.cmp a b) s = .next t ∧ t.flags = FlagState.flags
      (if s.reg i = s.reg j then .eq else if (s.reg i).toNat < (s.reg j).toNat then .lt else .gt)) ∧
  (∀ s t : State, step s = .next t → t.flags ≠ s.flags →
    ∃ a b rest, decode s.cfg.opcodeMap s.fetchBytes = .ok (.cmp a b) rest) ∧
  (∀ s t : State, step s = .next t → s.flags.exactlyOne = true → t.flags.exactlyOne = true) ∧
  (∀ (cfg : Config) (regs : Vector Byte 7) (mem : Memory) (image : List Nat) (t : State),
    Reaches (Session.boot cfg regs mem image).core t → t.flags.legal = true)

/-- R23, the "writes" column: the registers a step can change, by the instruction decoded at pc. -/
def Obligations.RegistersAStepChanges : Prop :=
  ∀ (s t : State) (j : Fin 8), step s = .next t → t.reg j ≠ s.reg j →
    ∃ i rest, decode s.cfg.opcodeMap s.fetchBytes = .ok i rest ∧
      match i with
      | .ldi r _ => r.toNat = j.val
      | .prn _   => False
      | .mul a _ => a.toNat = j.val
      | .add a _ => a.toNat = j.val
      | .cmp _ _ => False
      | .push _  => j = 7
      | .pop r   => r.toNat = j.val ∨ j = 7
      | .call _  => j = 7
      | .ret     => j = 7
      | .jmp _   => False
      | .jeq _   => False
      | .jne _   => False
      | .halt    => False

/-- R40, R43, R131: the one byte of memory a step can change is the slot of a PUSH or a CALL, at SP - 1 and not below STACK_FLOOR (the
floor is the spec's own D7). -/
def Obligations.MemoryAStepChanges : Prop :=
  ∀ (s t : State) (a : Nat), step s = .next t → t.mem.read a ≠ s.mem.read a →
    a = (s.sp - 1#8).toNat ∧ s.sp ≠ 0#8 ∧ s.cfg.stackFloor.val ≤ a ∧
    ∃ r rest, decode s.cfg.opcodeMap s.fetchBytes = .ok (.push r) rest ∨
      decode s.cfg.opcodeMap s.fetchBytes = .ok (.call r) rest

/-- R31, R175: the events a step adds to out: a committed PRN's, or the report of an unknown opcode (its contents are the spec's own
D11, PRN's event its D23); no other step, a faulting one included, adds any. -/
def Obligations.EventsAStepEmits : Prop :=
  ∀ s t : State, step s = .next t →
    (t.out = s.out ∧ (∀ op a, t.status ≠ .unknown op a)) ∨
    (∃ (r : Byte) (rest : List Byte) (i : Fin 8),
      decode s.cfg.opcodeMap s.fetchBytes = .ok (.prn r) rest ∧ r.toNat = i.val ∧
      t.out = s.out ++ [.prn (s.reg i)] ∧ t.status = .running) ∨
    (t.status = .unknown (s.mem.read s.pc.toNat) s.pc ∧
      t.out = s.out ++ [.unknownInstruction (s.mem.read s.pc.toNat) s.pc])

/-- R31, R35: along a run the events already on out stay, in order, at its head, and the configuration never changes (its place in State is
the model's choice, log 2). -/
def Obligations.RunKeepsOutputAndConfiguration : Prop :=
  ∀ s t : State, Reaches s t → s.out <+: t.out ∧ t.cfg = s.cfg

/-- R42, R40, R33: a step depends on memory only through the bytes at pc, pc+1 and pc+2 and the byte at SP. Two states that differ only in
other cells step alike, and each cell is either left alone in both or written with the same byte in both, at SP - 1. -/
def Obligations.StepReadsOnlyFetchedAndTopOfStack : Prop :=
  ∀ (s t : State) (mem : Memory), (∀ k, k < 3 → Memory.read mem (s.pc.toNat + k) = s.mem.read (s.pc.toNat + k)) →
    Memory.read mem s.sp.toNat = s.mem.read s.sp.toNat → step s = .next t →
      ∃ u, step { s with mem := mem } = .next u ∧
        u.x = t.x ∧ u.pc = t.pc ∧ u.flags = t.flags ∧ u.status = t.status ∧ u.out = t.out ∧ u.cfg = t.cfg ∧
        ∀ a, (t.mem.read a = s.mem.read a ∧ u.mem.read a = Memory.read mem a) ∨
          (u.mem.read a = t.mem.read a ∧ a = (s.sp - 1#8).toNat)

/-- R92, R142: a JMP whose register holds its own address never stops: every state its run reaches is the same running state, and a step
answers that state again. -/
def Obligations.JumpToItselfNeverStops : Prop :=
  ∀ (s t : State) (r : Byte) (rest : List Byte) (i : Fin 8), s.status = .running →
    decode s.cfg.opcodeMap s.fetchBytes = .ok (.jmp r) rest → r.toNat = i.val → zext9 (s.reg i) = s.pc →
      step s = .next s ∧ (Reaches s t → t = s ∧ t.status = .running)

/-- R92, R94: a run ends at most once, in one state. -/
def Obligations.RunEndsInOneState : Prop :=
  ∀ s t u : State, RunsTo s t → RunsTo s u → t = u

/-! ### The ALU functions (spec/42_alu.md) -/

/-- R111: ADD is the sum modulo 256, and it has no flag effect. -/
def Obligations.AluAddFunction : Prop :=
  (∀ p q : Byte, (aluAdd p q).toNat = (p.toNat + q.toNat) % 256) ∧
  (∀ (s : State) (a b : Fin 8), ((s.alu .add a b).reg a).toNat = ((s.reg a).toNat + (s.reg b).toNat) % 256 ∧
    (s.alu .add a b).pc = s.pc ∧ sameRegsBut [a] s (s.alu .add a b) ∧ sameMemBut [] s (s.alu .add a b) ∧
    sameRest s (s.alu .add a b))

/-- R112: MULTIPLY is the low 8 bits of the unsigned 16-bit product, and it has no flag effect. -/
def Obligations.AluMultiplyFunction : Prop :=
  (∀ p q : Byte, (aluMul p q).toNat = (p.toNat * q.toNat) % 256 ∧
    aluMul p q = ((p.setWidth 16 * q.setWidth 16).extractLsb' 0 8)) ∧
  (∀ (s : State) (a b : Fin 8), ((s.alu .multiply a b).reg a).toNat = ((s.reg a).toNat * (s.reg b).toNat) % 256 ∧
    (s.alu .multiply a b).pc = s.pc ∧ sameRegsBut [a] s (s.alu .multiply a b) ∧ sameMemBut [] s (s.alu .multiply a b) ∧
    sameRest s (s.alu .multiply a b))

/-- R113: COMPARE is the unsigned comparison, and it sets exactly one flag. -/
def Obligations.AluCompareFunction : Prop :=
  ∀ p q : Byte,
    (p = q → aluCmp p q = ⟨true, false, false⟩) ∧
    (p.toNat < q.toNat → aluCmp p q = ⟨false, true, false⟩) ∧
    (q.toNat < p.toNat → aluCmp p q = ⟨false, false, true⟩) ∧
    (aluCmp p q).exactlyOne = true ∧
    aluCmp 0x80#8 0x7F#8 = ⟨false, false, true⟩ ∧ (p ≠ 0xFF#8 → aluCmp 0xFF#8 p = ⟨false, false, true⟩)

/-! ### What each instruction does, and what it leaves unchanged (spec/41 to 44) -/

/-- R100, pseudocode, flags and PC: LDI r, imm sets x[r] to imm. -/
def Obligations.LdiSetsRegister : Prop :=
  ∀ (s : State) (r imm : Byte) (i : Fin 8), r.toNat = i.val →
    ∃ t, exec (.ldi r imm) s = .next t ∧ t.reg i = imm ∧ t.pc = s.pc + 3#9 ∧
      sameRegsBut [i] s t ∧ sameMemBut [] s t ∧ sameRest s t

/-- R101, pseudocode, flags and PC: PRN r emits x[r]. The form of the event is the spec's own D23. -/
def Obligations.PrnEmitsRegister : Prop :=
  ∀ (s : State) (r : Byte) (i : Fin 8), r.toNat = i.val →
    ∃ t, exec (.prn r) s = .next t ∧ t.out = s.out ++ [.prn (s.reg i)] ∧ t.pc = s.pc + 2#9 ∧
      sameRegsBut [] s t ∧ sameMemBut [] s t ∧ t.flags = s.flags ∧ t.status = s.status ∧ t.cfg = s.cfg

/-- R115, pseudocode, flags and PC: MUL a, b sets x[a] to the product modulo 256, for a = b and a = 7 too. -/
def Obligations.MulSetsProduct : Prop :=
  ∀ (s : State) (a b : Byte) (i j : Fin 8), a.toNat = i.val → b.toNat = j.val →
    ∃ t, exec (.mul a b) s = .next t ∧ (t.reg i).toNat = ((s.reg i).toNat * (s.reg j).toNat) % 256 ∧
      t.pc = s.pc + 3#9 ∧ sameRegsBut [i] s t ∧ sameMemBut [] s t ∧ sameRest s t

/-- R116, pseudocode, flags and PC: ADD a, b sets x[a] to the sum modulo 256, for a = b and a = 7 too. -/
def Obligations.AddSetsSum : Prop :=
  ∀ (s : State) (a b : Byte) (i j : Fin 8), a.toNat = i.val → b.toNat = j.val →
    ∃ t, exec (.add a b) s = .next t ∧ (t.reg i).toNat = ((s.reg i).toNat + (s.reg j).toNat) % 256 ∧
      t.pc = s.pc + 3#9 ∧ sameRegsBut [i] s t ∧ sameMemBut [] s t ∧ sameRest s t

/-- R117, pseudocode, flags, registers and PC: CMP a, b writes E, L and G, whatever they were, and no register. -/
def Obligations.CmpSetsFlags : Prop :=
  ∀ (s : State) (a b : Byte) (i j : Fin 8), a.toNat = i.val → b.toNat = j.val →
    ∃ t, exec (.cmp a b) s = .next t ∧
      (t.flags.e = true ↔ s.reg i = s.reg j) ∧
      (t.flags.l = true ↔ (s.reg i).toNat < (s.reg j).toNat) ∧
      (t.flags.g = true ↔ (s.reg j).toNat < (s.reg i).toNat) ∧
      t.pc = s.pc + 3#9 ∧ sameRegsBut [] s t ∧ sameMemBut [] s t ∧
      t.status = s.status ∧ t.out = s.out ∧ t.cfg = s.cfg

/-- R133, pseudocode, flags and PC: PUSH r stores x[r], read before SP changes, at SP - 1, and leaves SP there. The reading order for R7
is the spec's own D12, the floor its D7. -/
def Obligations.PushStoresRegister : Prop :=
  ∀ (s : State) (r : Byte) (i : Fin 8), r.toNat = i.val → s.sp ≠ 0#8 →
    s.cfg.stackFloor.val ≤ (s.sp - 1#8).toNat →
    ∃ t, exec (.push r) s = .next t ∧ t.sp = s.sp - 1#8 ∧ t.sp.toNat + 1 = s.sp.toNat ∧
      t.mem.read (s.sp - 1#8).toNat = s.reg i ∧ t.pc = s.pc + 2#9 ∧
      sameRegsBut [7] s t ∧ sameMemBut [(s.sp - 1#8).toNat] s t ∧ sameRest s t

/-- R134, pseudocode, flags and PC: POP r sets x[r] to the byte at SP and then increments SP; POP R7 leaves the popped value plus 1 in SP
(the order is the spec's own D12). No byte of memory changes. -/
def Obligations.PopLoadsRegister : Prop :=
  (∀ (s : State) (r : Byte) (i : Fin 8), r.toNat = i.val → i ≠ 7 → s.sp ≠ 0xFF#8 →
    ∃ t, exec (.pop r) s = .next t ∧ t.reg i = s.mem.read s.sp.toNat ∧ t.sp.toNat = s.sp.toNat + 1 ∧
      t.pc = s.pc + 2#9 ∧ sameRegsBut [i, 7] s t ∧ sameMemBut [] s t ∧ sameRest s t) ∧
  (∀ s : State, s.mem.read s.sp.toNat ≠ 0xFF#8 →
    ∃ t, exec (.pop 7#8) s = .next t ∧ t.sp.toNat = (s.mem.read s.sp.toNat).toNat + 1 ∧
      t.pc = s.pc + 2#9 ∧ sameRegsBut [7] s t ∧ sameMemBut [] s t ∧ sameRest s t)

/-- R140, pseudocode, flags and PC: CALL r stores the return address modulo 256 (the spec's own D13) at SP - 1, leaves SP there, and jumps
to x[r] as it is after the push, so that CALL R7 jumps to the new SP (the spec's own D12). -/
def Obligations.CallPushesReturnAddress : Prop :=
  ∀ (s : State) (r : Byte) (i : Fin 8), r.toNat = i.val → s.sp ≠ 0#8 →
    s.cfg.stackFloor.val ≤ (s.sp - 1#8).toNat →
    ∃ t, exec (.call r) s = .next t ∧ t.sp = s.sp - 1#8 ∧ t.sp.toNat + 1 = s.sp.toNat ∧
      (t.mem.read (s.sp - 1#8).toNat).toNat = (s.pc.toNat + 2) % 256 ∧
      t.pc.toNat = (if i = 7 then (s.sp - 1#8).toNat else (s.reg i).toNat) ∧
      sameRegsBut [7] s t ∧ sameMemBut [(s.sp - 1#8).toNat] s t ∧ sameRest s t

/-- R141, pseudocode, flags and PC: RET sets pc to the byte at SP and increments SP. -/
def Obligations.RetPopsReturnAddress : Prop :=
  ∀ s : State, s.sp ≠ 0xFF#8 →
    ∃ t, exec .ret s = .next t ∧ t.pc.toNat = (s.mem.read s.sp.toNat).toNat ∧ t.sp.toNat = s.sp.toNat + 1 ∧
      sameRegsBut [7] s t ∧ sameMemBut [] s t ∧ sameRest s t

/-- R142, pseudocode, flags and PC: JMP r sets pc to x[r]. -/
def Obligations.JmpSetsPc : Prop :=
  ∀ (s : State) (r : Byte) (i : Fin 8), r.toNat = i.val →
    ∃ t, exec (.jmp r) s = .next t ∧ t.pc.toNat = (s.reg i).toNat ∧
      sameRegsBut [] s t ∧ sameMemBut [] s t ∧ sameRest s t

/-- R143, R144, pseudocode, flags and PC: JEQ jumps to x[r] when E = 1, JNE when E = 0, and each goes on at at + 2 otherwise. -/
def Obligations.ConditionalJumps : Prop :=
  ∀ (s : State) (r : Byte) (i : Fin 8), r.toNat = i.val →
    (∃ t, exec (.jeq r) s = .next t ∧
      t.pc = (if s.flags.e = true then zext9 (s.reg i) else s.pc + 2#9) ∧
      sameRegsBut [] s t ∧ sameMemBut [] s t ∧ sameRest s t) ∧
    (∃ t, exec (.jne r) s = .next t ∧
      t.pc = (if s.flags.e = false then zext9 (s.reg i) else s.pc + 2#9) ∧
      sameRegsBut [] s t ∧ sameMemBut [] s t ∧ sameRest s t)

/-- R145, pseudocode and flags: HALT sets the status to HALTED and changes nothing else; that the pc stays is an inference the spec marks
as its own (R145). -/
def Obligations.HaltStops : Prop :=
  ∀ s : State, ∃ t, exec .halt s = .next t ∧ t.status = .halted ∧ t.pc = s.pc ∧
    sameRegsBut [] s t ∧ sameMemBut [] s t ∧ t.flags = s.flags ∧ t.out = s.out ∧ t.cfg = s.cfg

/-- R133, R134 (the source's stack round-trip law): PUSH r; POP r2 leaves x[r2] = x[r] as it was before the push, and SP as it was, for
every r2 but R7; POP R7 leaves the pushed value plus 1 in SP, or raises STACK_OVERFLOW when that value is 0xFF (C4; the spec's own D6,
D8 and D12). -/
def Obligations.PushPopRoundTrip : Prop :=
  ∀ (s : State) (r r2 : Byte) (i j : Fin 8), r.toNat = i.val → r2.toNat = j.val → s.sp ≠ 0#8 →
    s.cfg.stackFloor.val ≤ (s.sp - 1#8).toNat →
    ∃ t, exec (.push r) s = .next t ∧
      (j ≠ 7 → ∃ u, exec (.pop r2) t = .next u ∧ u.reg j = s.reg i ∧ u.sp = s.sp ∧
        sameRegsBut [j] s u ∧ u.pc = s.pc + 4#9 ∧ sameRest s u) ∧
      (j = 7 → s.reg i ≠ 0xFF#8 → ∃ u, exec (.pop r2) t = .next u ∧ u.sp.toNat = (s.reg i).toNat + 1) ∧
      (j = 7 → s.reg i = 0xFF#8 → exec (.pop r2) t = .next { t with status := .fault (.stackOverflow 0xFF#8) })

/-- R140, R141 (the source's CALL/RET round-trip law): CALL and then RET leave pc at the call's address plus 2, modulo 256 (the spec's own
D13), and every register as it was. -/
def Obligations.CallRetRoundTrip : Prop :=
  ∀ (s : State) (r : Byte) (i : Fin 8), r.toNat = i.val → s.sp ≠ 0#8 →
    s.cfg.stackFloor.val ≤ (s.sp - 1#8).toNat →
    ∃ t u, exec (.call r) s = .next t ∧ exec .ret t = .next u ∧
      u.pc.toNat = (s.pc.toNat + 2) % 256 ∧ sameRegsBut [] s u ∧ sameRest s u ∧
      sameMemBut [(s.sp - 1#8).toNat] s u

/-! ### Memory (spec/20_memory.md) -/

/-- R42, R43, R47, R49: a write inside 0..255 stores the value modulo 256 there and changes no other byte; an access above 255 raises
MEM_RANGE and never wraps. That a write keeps the canonical form is about a form that is the model's choice (log 6). -/
def Obligations.MemoryAccess : Prop :=
  ∀ (s : State) (a v : Nat),
    (a ≤ 255 → s.memRead a = .ok (s.mem.read a) ∧
      ∃ t, s.memWrite a v = .ok t ∧ (t.mem.read a).toNat = v % 256 ∧ sameMemBut [a] s t ∧
        (s.mem.wf → t.mem.wf) ∧ sameRegsBut [] s t ∧ t.pc = s.pc ∧ sameRest s t) ∧
    (255 < a → s.memRead a = .error (.memRange a) ∧ s.memWrite a v = .error (.memRange a))

/-- R30 (the canonical form is the model's choice, log 6): memories in canonical form that read alike are equal data. -/
def Obligations.CanonicalMemoriesAreEqual : Prop :=
  ∀ m n : Memory, m.wf → n.wf → (∀ a, m.read a = n.read a) → m = n

/-! ### The host's operations, reset and boot (spec/10_state.md, spec/20_memory.md, spec/40_engine.md, spec/70_reset_and_hazards.md) -/

/-- R34, R55, R180, R182: for all launch inputs, a boot with an image of at most 256 bytes gives the reset state: the image modulo 256
from address 0, INIT_MEM in every other cell, INIT_REGS in R0..R6, and SP = 0xF4, pc = 0, no flag, RUNNING, no output; and no step has
been taken (the host's phase and its count of events received are the model's choice, log 9). -/
def Obligations.BootState : Prop :=
  ∀ (cfg : Config) (regs : Vector Byte 7) (mem : Memory) (image : List Nat), image.length ≤ 256 →
    ∃ s, Session.boot cfg regs mem image = ⟨s, .loading, 0⟩ ∧
      s.sp = 0xF4#8 ∧ (∀ i : Fin 7, s.reg i.castSucc = regs[i]) ∧ s.pc = 0#9 ∧ s.flags = ⟨false, false, false⟩ ∧
      s.status = .running ∧ s.out = [] ∧ s.cfg = cfg ∧
      ∀ a, s.mem.read a = ((image[a]?).map trunc8).getD (mem.read a)

/-- R55 (the spec's own D16): an image longer than 256 bytes is refused as MEM_RANGE at address 256, and the run does not start (that no
step is allowed then is DEDUCED, log 9). -/
def Obligations.BootRefusesLongImage : Prop :=
  ∀ (cfg : Config) (regs : Vector Byte 7) (mem : Memory) (image : List Nat), 256 < image.length →
    (Session.boot cfg regs mem image).phase = .loadRefused (.memRange 256) ∧
    (Session.boot cfg regs mem image).perform .step = none

/-- R91's reset row, R180, R173: at any time and in any status a reset replaces all state by the reset state of R34, with these launch
inputs, and the host may load again (its phase and its count of events received are the model's choice, log 9). The configuration, which
is no state (R35), stays. -/
def Obligations.HostResetReplacesState : Prop :=
  ∀ (s : Session) (regs : Vector Byte 7) (mem : Memory),
    ∃ t, s.perform (.reset regs mem) = some ⟨t, .loading, 0⟩ ∧
      t.sp = 0xF4#8 ∧ (∀ i : Fin 7, t.reg i.castSucc = regs[i]) ∧ t.pc = 0#9 ∧ t.flags = ⟨false, false, false⟩ ∧
      (∀ a, t.mem.read a = mem.read a) ∧ t.status = .running ∧ t.out = [] ∧ t.cfg = s.core.cfg

/-- R55, R91's load row (the spec's own D16; how "before the first step" is recorded is the model's choice, log 9): a load is allowed
exactly after a reset and before the first step. It stores the byte modulo 256 at its address and changes nothing else; above 255 it is
refused as MEM_RANGE, nothing is stored, and neither a step nor another load is allowed until a reset. -/
def Obligations.LoadOnlyBeforeFirstStep : Prop :=
  ∀ (s : Session) (a b : Nat),
    (s.phase ≠ .loading → s.perform (.load a b) = none) ∧
    (s.phase = .loading → a ≤ 255 → ∃ t, s.perform (.load a b) = some { s with core := t } ∧
      (t.mem.read a).toNat = b % 256 ∧ sameMemBut [a] s.core t ∧ sameRegsBut [] s.core t ∧ t.pc = s.core.pc ∧ sameRest s.core t) ∧
    (s.phase = .loading → 255 < a → ∃ t, s.perform (.load a b) = some t ∧ t.core = s.core ∧
      t.phase = .loadRefused (.memRange a) ∧ t.perform .step = none ∧ ∀ c d, t.perform (.load c d) = none)

/-- R91's step row: the host's step is allowed exactly while the status is RUNNING and no load was refused (R55), and it is the core's
step, after which the run has started (the host's phase is the model's choice, log 9). -/
def Obligations.HostStepRunsCore : Prop :=
  ∀ s : Session,
    ((∃ t, s.perform .step = some t) ↔ s.core.status = .running ∧ ∀ c, s.phase ≠ .loadRefused c) ∧
    ∀ t, s.perform .step = some t → step s.core = .next t.core ∧ t.phase = .started ∧ t.received = s.received

/-- R91, R55 (the spec's own D16, D24): once the first step has been taken, whatever the host does without a reset, every state of the
core is one its own steps reach, and no load is among what it did. How "once the first step has been taken" is recorded is the model's
choice (log 9), and so is that receiving leaves `out` as it was (logs 9 and 16). -/
def Obligations.HostWritesNothingAfterFirstStep : Prop :=
  ∀ (s t : Session) (ops : List HostOp), s.phase = .started → (∀ op ∈ ops, op.isReset = false) → s.performAll ops = some t →
    Reaches s.core t.core ∧ t.phase = .started ∧ ∀ a b, HostOp.load a b ∉ ops

/-- R91's observe and receive rows, R31: observing is always allowed and changes nothing; receiving is allowed exactly while an event is
left and takes the oldest one left; and until a reset no event received is taken back or changed. That receiving leaves the core as it
was, `out` included, so that the events received are a counted head of an `out` from which nothing is removed, is the model's choice
(log 9 for the counter, log 16 for `out`); R91 says only that the host takes the events of `out` in order. -/
def Obligations.HostReceivesInOrder : Prop :=
  (∀ s : Session, s.perform .observe = some s) ∧
  (∀ s : Session, s.received < s.core.out.length → ∃ t ev, s.perform .receive = some t ∧ s.nextEvent = some ev ∧
    t.core = s.core ∧ t.phase = s.phase ∧
    t.core.out.take t.received = s.core.out.take s.received ++ [ev]) ∧
  (∀ s : Session, s.core.out.length ≤ s.received → s.perform .receive = none) ∧
  (∀ (s t : Session) (ops : List HostOp), s.received ≤ s.core.out.length → (∀ op ∈ ops, op.isReset = false) →
    s.performAll ops = some t →
      s.core.out.take s.received <+: t.core.out.take t.received ∧ t.received ≤ t.core.out.length)

/-! ### State.reset and the invariant -/

/-- The model's choice of the launch inputs at State.reset, logs 3 to 6, beside the values R34 gives. -/
def Obligations.ResetValues : Prop :=
  (∀ i : Fin 8, State.reset.reg i = if i = 7 then 0xF4#8 else 0#8) ∧ State.reset.pc = 0#9 ∧
  State.reset.flags = ⟨false, false, false⟩ ∧ (∀ a, State.reset.mem.read a = 0#8) ∧
  State.reset.status = .running ∧ State.reset.out = [] ∧ State.reset.cfg.opcodeMap = OpcodeMap.ls8 ∧
  State.reset.cfg.stackFloor = 0

/-- R25, R27, R29, R64: the invariant holds at State.reset (whose launch inputs are the model's choice, logs 3 to 6, as is the canonical
form of memory, log 6). -/
def Obligations.ResetMeetsInvariant : Prop := State.reset.Inv

/-- R34, R55: the invariant holds after every boot, whatever the launch inputs and the image; before the first step the core is in reset.
The canonical form of memory in it is the model's choice (log 6), and so is the host's phase (log 9). -/
def Obligations.BootMeetsInvariant : Prop :=
  ∀ (cfg : Config) (regs : Vector Byte 7) (mem : Memory) (image : List Nat),
    cfg.opcodeMap.valid = true → mem.wf → (Session.boot cfg regs mem image).Inv

/-- R91, R55, R180: every operation the host performs keeps the invariant, a reset with a canonical INIT_MEM among them: until the first
step the core is in reset but for what was loaded, and a run that does not start leaves it there. The canonical form is the model's
choice (log 6), and so are the host's phase and its count of events received (log 9), with an `out` from which receiving removes nothing
(log 16); the core's part rests on what StepKeepsInvariant names. -/
def Obligations.HostOperationsKeepInvariant : Prop :=
  ∀ (s t : Session) (op : HostOp), s.Inv → (∀ regs mem, op = .reset regs mem → mem.wf) → s.perform op = some t → t.Inv

/-- R25, R27, R29, R30, R31, R162, R164: every step keeps the invariant: memory in canonical form, pc in 0..256, the flags in one of their
four states, and a run status that agrees with the state, its recorded cause and its report included. The canonical form is the model's
choice (log 6), the address 256 of every MEM_RANGE is DEDUCED (log 18; R162 lists 256 or 257), precise faults are the spec's own D8
(log 12), the report's contents its D11 (log 16), and the pc's width its D3 (log 7); that STACK_OVERFLOW is recorded at SP = 0xFF, or for
POP R7 at a popped byte of 0xFF, is its D6 (log 11) and D12 (log 14), the collision its D7, REG_RANGE's place among the checks its D9
(log 13). -/
def Obligations.StepKeepsInvariant : Prop :=
  ∀ s t : State, s.Inv → step s = .next t → t.Inv
end

