-- ==== Sys2Proof/Laws/State.lean ====
section
/-! SUPPORT. One lemma per field per update of State, true by rfl, and the register file's read-after-write law. -/

namespace Sys2Proof.Machine

variable (s : State) (i j : Fin 8) (v : Byte) (n : Nat) (ev : Event) (op : Byte) (c : FaultCause)

@[simp] theorem State.setReg_pc : (s.setReg i v).pc = s.pc := rfl
@[simp] theorem State.setReg_flags : (s.setReg i v).flags = s.flags := rfl
@[simp] theorem State.setReg_mem : (s.setReg i v).mem = s.mem := rfl
@[simp] theorem State.setReg_status : (s.setReg i v).status = s.status := rfl
@[simp] theorem State.setReg_out : (s.setReg i v).out = s.out := rfl
@[simp] theorem State.setReg_cfg : (s.setReg i v).cfg = s.cfg := rfl

@[simp] theorem State.setSp_eq : s.setSp v = s.setReg 7 v := rfl

@[simp] theorem State.advance_x : (s.advance n).x = s.x := rfl
@[simp] theorem State.advance_reg : (s.advance n).reg i = s.reg i := rfl
@[simp] theorem State.advance_sp : (s.advance n).sp = s.sp := rfl
@[simp] theorem State.advance_pc : (s.advance n).pc = s.pc + BitVec.ofNat 9 n := rfl
@[simp] theorem State.advance_flags : (s.advance n).flags = s.flags := rfl
@[simp] theorem State.advance_mem : (s.advance n).mem = s.mem := rfl
@[simp] theorem State.advance_status : (s.advance n).status = s.status := rfl
@[simp] theorem State.advance_out : (s.advance n).out = s.out := rfl
@[simp] theorem State.advance_cfg : (s.advance n).cfg = s.cfg := rfl

@[simp] theorem State.jump_x : (s.jump v).x = s.x := rfl
@[simp] theorem State.jump_reg : (s.jump v).reg i = s.reg i := rfl
@[simp] theorem State.jump_sp : (s.jump v).sp = s.sp := rfl
@[simp] theorem State.jump_pc : (s.jump v).pc = zext9 v := rfl
@[simp] theorem State.jump_flags : (s.jump v).flags = s.flags := rfl
@[simp] theorem State.jump_mem : (s.jump v).mem = s.mem := rfl
@[simp] theorem State.jump_status : (s.jump v).status = s.status := rfl
@[simp] theorem State.jump_out : (s.jump v).out = s.out := rfl
@[simp] theorem State.jump_cfg : (s.jump v).cfg = s.cfg := rfl

@[simp] theorem State.emit_x : (s.emit ev).x = s.x := rfl
@[simp] theorem State.emit_reg : (s.emit ev).reg i = s.reg i := rfl
@[simp] theorem State.emit_sp : (s.emit ev).sp = s.sp := rfl
@[simp] theorem State.emit_pc : (s.emit ev).pc = s.pc := rfl
@[simp] theorem State.emit_flags : (s.emit ev).flags = s.flags := rfl
@[simp] theorem State.emit_mem : (s.emit ev).mem = s.mem := rfl
@[simp] theorem State.emit_status : (s.emit ev).status = s.status := rfl
@[simp] theorem State.emit_out : (s.emit ev).out = s.out ++ [ev] := rfl
@[simp] theorem State.emit_cfg : (s.emit ev).cfg = s.cfg := rfl

@[simp] theorem State.stopHalted_x : s.stopHalted.x = s.x := rfl
@[simp] theorem State.stopHalted_reg : s.stopHalted.reg i = s.reg i := rfl
@[simp] theorem State.stopHalted_sp : s.stopHalted.sp = s.sp := rfl
@[simp] theorem State.stopHalted_pc : s.stopHalted.pc = s.pc := rfl
@[simp] theorem State.stopHalted_flags : s.stopHalted.flags = s.flags := rfl
@[simp] theorem State.stopHalted_mem : s.stopHalted.mem = s.mem := rfl
@[simp] theorem State.stopHalted_status : s.stopHalted.status = .halted := rfl
@[simp] theorem State.stopHalted_out : s.stopHalted.out = s.out := rfl
@[simp] theorem State.stopHalted_cfg : s.stopHalted.cfg = s.cfg := rfl

@[simp] theorem State.stopUnknown_x : (s.stopUnknown op).x = s.x := rfl
@[simp] theorem State.stopUnknown_reg : (s.stopUnknown op).reg i = s.reg i := rfl
@[simp] theorem State.stopUnknown_sp : (s.stopUnknown op).sp = s.sp := rfl
@[simp] theorem State.stopUnknown_pc : (s.stopUnknown op).pc = s.pc := rfl
@[simp] theorem State.stopUnknown_flags : (s.stopUnknown op).flags = s.flags := rfl
@[simp] theorem State.stopUnknown_mem : (s.stopUnknown op).mem = s.mem := rfl
@[simp] theorem State.stopUnknown_status : (s.stopUnknown op).status = .unknown op s.pc := rfl
@[simp] theorem State.stopUnknown_out :
    (s.stopUnknown op).out = s.out ++ [.unknownInstruction op s.pc] := rfl
@[simp] theorem State.stopUnknown_cfg : (s.stopUnknown op).cfg = s.cfg := rfl

@[simp] theorem State.raiseFault_x : (s.raiseFault c).x = s.x := rfl
@[simp] theorem State.raiseFault_reg : (s.raiseFault c).reg i = s.reg i := rfl
@[simp] theorem State.raiseFault_sp : (s.raiseFault c).sp = s.sp := rfl
@[simp] theorem State.raiseFault_pc : (s.raiseFault c).pc = s.pc := rfl
@[simp] theorem State.raiseFault_flags : (s.raiseFault c).flags = s.flags := rfl
@[simp] theorem State.raiseFault_mem : (s.raiseFault c).mem = s.mem := rfl
@[simp] theorem State.raiseFault_status : (s.raiseFault c).status = .fault c := rfl
@[simp] theorem State.raiseFault_out : (s.raiseFault c).out = s.out := rfl
@[simp] theorem State.raiseFault_cfg : (s.raiseFault c).cfg = s.cfg := rfl

variable {s i j v}

/-- A register reads what was last written to it, and a write leaves every other register alone (R20, R22). -/
@[simp] theorem State.reg_setReg : (s.setReg i v).reg j = if i = j then v else s.reg j := by
  simp [State.reg, State.setReg, Vector.getElem_set, Fin.ext_iff]

/-- SP is x[7] (R21). -/
@[simp] theorem State.sp_setReg : (s.setReg i v).sp = if i = 7 then v else s.sp :=
  State.reg_setReg

theorem State.sp_eq_reg : s.sp = s.reg 7 := rfl

end Sys2Proof.Machine
end

