-- ==== Sys2Proof/Laws/Memory.lean ====
section
/-! SUPPORT. The memory's laws: read after write, the canonical form, and the access operations' one spec lemma each. -/

namespace Sys2Proof.Machine

variable {m n : Memory} {a b : Nat} {v w : Byte} {s t : State}

theorem Memory.read_insertAt :
    Memory.read (Memory.insertAt a v m) b = if b = a then v else Memory.read m b := by
  induction m with
  | nil => simp only [Memory.insertAt, Memory.read, eq_comm]
  | cons c rest ih =>
    obtain ⟨k, u⟩ := c
    by_cases hlt : a < k
    · simp only [Memory.insertAt, hlt, if_true, Memory.read, eq_comm]
    · by_cases hk : a = k
      · subst hk
        by_cases hb : a = b
        · simp [Memory.insertAt, Memory.read, hb]
        · simp [Memory.insertAt, Memory.read, hb, Ne.symm hb]
      · simp only [Memory.insertAt, hlt, hk, if_false, Memory.read, ih]
        by_cases hkb : k = b
        · subst hkb
          simp [Ne.symm hk]
        · simp [hkb]

theorem Memory.read_filter :
    Memory.read (m.filter (fun c => c.1 ≠ a)) b = if b = a then unlistedByte else Memory.read m b := by
  induction m with
  | nil => simp [Memory.read]
  | cons c rest ih =>
    obtain ⟨k, u⟩ := c
    by_cases hk : k = a
    · subst hk; by_cases hb : b = k <;> simp_all [Memory.read, eq_comm]
    · by_cases hb : b = a <;> by_cases hkb : k = b <;> simp_all [Memory.read]

/-- Read after write: the written address gives the written byte, every other address reads as before. -/
@[simp] theorem Memory.read_write :
    Memory.read (Memory.write m a v) b = if b = a then v else Memory.read m b := by
  by_cases hv : v = unlistedByte
  · simp only [Memory.write, hv, if_true, Memory.read_filter]
  · simp only [Memory.write, hv, if_false, Memory.read_insertAt]

theorem Memory.mem_insertAt {c : Host.Cell} (h : c ∈ Memory.insertAt a v m) : c = (a, v) ∨ c ∈ m := by
  induction m with
  | nil => simpa [Memory.insertAt] using h
  | cons d rest ih =>
    obtain ⟨k, u⟩ := d
    by_cases hlt : a < k
    · simpa [Memory.insertAt, hlt] using h
    · by_cases hk : a = k
      · simp only [Memory.insertAt, hk, lt_irrefl, if_false, if_true, List.mem_cons] at h ⊢
        tauto
      · simp only [Memory.insertAt, hlt, hk, if_false, List.mem_cons] at h ⊢
        rcases h with h | h
        · exact .inr (.inl h)
        · exact (ih h).imp_right .inr

theorem Memory.rising_insertAt (h : m.Pairwise (fun c d => c.1 < d.1)) :
    (Memory.insertAt a v m).Pairwise (fun c d => c.1 < d.1) := by
  induction m with
  | nil => simp [Memory.insertAt]
  | cons d rest ih =>
    obtain ⟨k, u⟩ := d
    obtain ⟨hd, hrest⟩ := List.pairwise_cons.mp h
    by_cases hlt : a < k
    · simp only [Memory.insertAt, hlt, if_true]
      refine List.pairwise_cons.mpr ⟨fun c hc => ?_, h⟩
      rcases List.mem_cons.mp hc with rfl | hc
      · exact hlt
      · exact lt_trans hlt (hd c hc)
    · by_cases hk : a = k
      · subst hk
        simp only [Memory.insertAt, lt_irrefl, if_false, if_true]
        exact List.pairwise_cons.mpr ⟨hd, hrest⟩
      · simp only [Memory.insertAt, hlt, hk, if_false]
        refine List.pairwise_cons.mpr ⟨fun c hc => ?_, ih hrest⟩
        rcases Memory.mem_insertAt hc with rfl | hc
        · exact lt_of_le_of_ne (not_lt.mp hlt) (Ne.symm hk)
        · exact hd c hc

/-- A write inside the address space keeps the canonical form. -/
theorem Memory.wf_write (h : m.wf) (ha : a ≤ 255) : (Memory.write m a v).wf := by
  by_cases hv : v = unlistedByte
  · simp only [Memory.write, hv, if_true]
    exact ⟨h.1.filter _, fun c hc => h.2 c (List.mem_of_mem_filter hc)⟩
  · simp only [Memory.write, hv, if_false]
    refine ⟨Memory.rising_insertAt h.1, fun c hc => ?_⟩
    rcases Memory.mem_insertAt hc with rfl | hc
    · exact ⟨ha, hv⟩
    · exact h.2 c hc

/-- The empty memory, in which every cell reads as unlisted, is in canonical form. -/
theorem Memory.wf_nil : Memory.wf [] := by decide

/-! ### The access operations -/

/-- `MemRead` inside the address space (R42). -/
theorem State.memRead_ok (h : a ≤ 255) : s.memRead a = .ok (s.mem.read a) := by
  simp [State.memRead, Nat.not_lt.mpr h]

/-- `MemRead` outside the address space (R42, R47). -/
theorem State.memRead_error (h : 255 < a) : s.memRead a = .error (.memRange a) := by
  simp [State.memRead, h]

/-- `MemWrite` inside the address space (R43). -/
theorem State.memWrite_ok (h : a ≤ 255) (k : Nat) :
    s.memWrite a k = .ok { s with mem := s.mem.write a (trunc8 k) } := by
  simp [State.memWrite, Nat.not_lt.mpr h]

/-- `MemWrite` outside the address space (R43, R47). -/
theorem State.memWrite_error (h : 255 < a) (k : Nat) : s.memWrite a k = .error (.memRange a) := by
  simp [State.memWrite, h]

/-- The bytes a fetch sees: those of memory, up to address 255. -/
theorem State.bytesAt_getElem? (n k : Nat) :
    (s.bytesAt a n)[k]? = if k < n ∧ a + k ≤ 255 then some (s.mem.read (a + k)) else none := by
  induction n generalizing a k with
  | zero => simp [State.bytesAt]
  | succ n ih =>
    by_cases ha : a ≤ 255
    · cases k with
      | zero => simp [State.bytesAt, State.memRead_ok ha, ha]
      | succ k =>
        simp only [State.bytesAt, State.memRead_ok ha, List.getElem?_cons_succ, ih, Nat.add_lt_add_iff_right,
          Nat.add_assoc, Nat.add_comm 1 k]
    · simp only [State.bytesAt, State.memRead_error (not_le.mp ha), List.getElem?_nil]
      rw [if_neg (by omega)]

end Sys2Proof.Machine
end

