-- ==== Sys2Proof/Laws/Decode.lean ====
section
/-! SUPPORT. The decoder's laws: the opcode lookup, and decoding what memory holds at pc. -/

namespace Sys2Proof

variable {m : OpcodeMap} {op : Byte} {k : Mnemonic} {i : Instr} {bs rest : List Byte}

theorem Mnemonic.mem_all (k : Mnemonic) : k ∈ Mnemonic.all := by cases k <;> decide

/-- A found row has the opcode byte (R65). -/
theorem byteOf_of_decodeOpcode (h : decodeOpcode m op = some k) : m.byteOf k = op := by
  simpa using List.find?_some h

/-- No row is found exactly when no row has the opcode byte (R65, R66). -/
theorem decodeOpcode_eq_none : decodeOpcode m op = none ↔ ∀ k, m.byteOf k ≠ op := by
  simp [decodeOpcode, List.find?_eq_none, Mnemonic.mem_all]

/-- A valid map has one row a byte (R64). -/
theorem OpcodeMap.byteOf_injective (hm : m.valid = true) : Function.Injective m.byteOf := by
  intro j k h
  exact List.inj_on_of_nodup_map (of_decide_eq_true hm) (Mnemonic.mem_all j) (Mnemonic.mem_all k) h

/-- Under a valid map a row's own byte finds it (R65). -/
theorem decodeOpcode_byteOf (hm : m.valid = true) (k : Mnemonic) : decodeOpcode m (m.byteOf k) = some k := by
  cases h : decodeOpcode m (m.byteOf k) with
  | none => exact absurd rfl (decodeOpcode_eq_none.mp h k)
  | some j => rw [OpcodeMap.byteOf_injective hm (byteOf_of_decodeOpcode h)]

/-- HALT is recognised first, whatever the map (R83). -/
theorem decodeOpcode_halt (m : OpcodeMap) : decodeOpcode m m.halt = some .halt := by
  simp [decodeOpcode, Mnemonic.all, OpcodeMap.byteOf]

/-- Decoding operand bytes gives an instruction of the mnemonic, which uses up the operand bytes (R60, R61). -/
theorem decodeOperands_ok (h : decodeOperands k bs = .ok i rest) :
    i.mnemonic = k ∧ m.byteOf k :: bs = encode m i ++ rest := by
  cases k <;> simp only [decodeOperands, oneOperand, twoOperands] at h <;> (try split at h) <;> cases h <;>
    exact ⟨rfl, rfl⟩

/-- Which operand byte a decoding stops at (R85). -/
theorem decodeOperands_missing {n : Nat} (h : decodeOperands k bs = .missingByte n) :
    n = bs.length + 1 ∧ bs.length + 1 < k.bytes := by
  cases k <;> simp only [decodeOperands, oneOperand, twoOperands] at h <;> (try split at h) <;> cases h <;>
    simp [Mnemonic.bytes, Mnemonic.format, Format.bytes]

/-- Operand decoding never rejects an opcode. -/
theorem decodeOperands_known : decodeOperands k bs ≠ .unknownOpcode op := by
  cases k <;> simp only [decodeOperands, oneOperand, twoOperands] <;> (try split) <;> simp

/-- A decoded instruction's opcode byte is its row's, and the bytes are its encoding and the rest (R61, R65). -/
theorem decode_cons_ok (h : decode m (op :: bs) = .ok i rest) :
    decodeOpcode m op = some i.mnemonic ∧ op :: bs = encode m i ++ rest := by
  rw [decode] at h
  split at h
  · cases h
  · rename_i k hk
    have he := decodeOperands_ok (m := m) h
    rw [byteOf_of_decodeOpcode hk] at he
    exact ⟨he.1 ▸ hk, he.2⟩

@[simp] theorem encode_length : (encode m i).length = i.bytes := by cases i <;> rfl

theorem Mnemonic.bytes_range (k : Mnemonic) : 1 ≤ k.bytes ∧ k.bytes ≤ 3 := by cases k <;> decide

theorem Instr.bytes_pos : 1 ≤ i.bytes := i.mnemonic.bytes_range.1

theorem Instr.bytes_le : i.bytes ≤ 3 := i.mnemonic.bytes_range.2

namespace Machine

variable {s : State}

/-- The bytes an instruction fetch sees (R82, R85). -/
theorem State.fetchBytes_getElem? (j : Nat) :
    s.fetchBytes[j]? = if j < 3 ∧ s.pc.toNat + j ≤ 255 then some (s.mem.read (s.pc.toNat + j)) else none :=
  State.bytesAt_getElem? 3 j

theorem State.fetchBytes_length : s.fetchBytes.length = min 3 (256 - s.pc.toNat) := by
  have h : ∀ j, s.fetchBytes.length ≤ j ↔ min 3 (256 - s.pc.toNat) ≤ j := fun j => by
    rw [← List.getElem?_eq_none_iff, State.fetchBytes_getElem?]
    split <;> simp <;> omega
  exact Nat.le_antisymm ((h _).mpr (Nat.le_refl _)) ((h _).mp (Nat.le_refl _))

/-- The bytes an instruction was decoded from stand in memory from pc on, all of them at addresses up to 255. -/
theorem State.decoded_in_memory (h : decode s.cfg.opcodeMap s.fetchBytes = .ok i rest) :
    s.pc.toNat + i.bytes ≤ 256 ∧
    ∀ j, j < i.bytes → some (s.mem.read (s.pc.toNat + j)) = (encode s.cfg.opcodeMap i)[j]? := by
  have he : s.fetchBytes = encode s.cfg.opcodeMap i ++ rest := by
    cases hf : s.fetchBytes with
    | nil => rw [hf] at h; cases h
    | cons b bs => rw [hf] at h; exact (decode_cons_ok h).2
  have hlen : i.bytes ≤ min 3 (256 - s.pc.toNat) := by
    rw [← State.fetchBytes_length, he]; simp
  have hpos := Instr.bytes_pos (i := i)
  refine ⟨by omega, fun j hj => ?_⟩
  have hj' := State.fetchBytes_getElem? (s := s) j
  rw [if_pos (by omega), he, List.getElem?_append_left (by simpa using hj)] at hj'
  exact hj'.symm

/-- The opcode byte of a decoded instruction stands at pc, and is its row's. -/
theorem State.decoded_opcode (h : decode s.cfg.opcodeMap s.fetchBytes = .ok i rest) :
    s.pc.toNat ≤ 255 ∧ decodeOpcode s.cfg.opcodeMap (s.mem.read s.pc.toNat) = some i.mnemonic := by
  have hpos := Instr.bytes_pos (i := i)
  have hmem := State.decoded_in_memory h
  have hpc : s.pc.toNat ≤ 255 := by omega
  have h0 := State.fetchBytes_getElem? (s := s) 0
  rw [if_pos (by omega)] at h0
  cases hf : s.fetchBytes with
  | nil => rw [hf] at h0; cases h0
  | cons b bs =>
    rw [hf] at h h0
    have hb : b = s.mem.read s.pc.toNat := by simpa using h0
    exact ⟨hpc, hb ▸ (decode_cons_ok h).1⟩

/-- What an enabled step does, once and for all (R82 to R89, R165): the opcode fetch is out of range; the opcode is unknown;
an operand fetch is out of range; or the decoded instruction runs. -/
theorem State.runInstruction_cases (s : State) :
    (255 < s.pc.toNat ∧ s.runInstruction = .next (s.raiseFault (.memRange s.pc.toNat))) ∨
    (s.pc.toNat ≤ 255 ∧ (∀ k, s.cfg.opcodeMap.byteOf k ≠ s.mem.read s.pc.toNat) ∧
      s.runInstruction = .next (s.stopUnknown (s.mem.read s.pc.toNat))) ∨
    (∃ k, s.pc.toNat ≤ 255 ∧ decodeOpcode s.cfg.opcodeMap (s.mem.read s.pc.toNat) = some k ∧
      256 < s.pc.toNat + k.bytes ∧ s.runInstruction = .next (s.raiseFault (.memRange 256))) ∨
    (∃ i rest, decode s.cfg.opcodeMap s.fetchBytes = .ok i rest ∧ s.runInstruction = exec i s) := by
  have h0 := State.fetchBytes_getElem? (s := s) 0
  have hlen := State.fetchBytes_length (s := s)
  by_cases hpc : s.pc.toNat ≤ 255
  · refine .inr ?_
    obtain ⟨b, bs, hf⟩ : ∃ b bs, s.fetchBytes = b :: bs := by
      cases hf : s.fetchBytes with
      | nil => rw [hf] at hlen; simp at hlen; omega
      | cons b bs => exact ⟨b, bs, rfl⟩
    have hb : b = s.mem.read s.pc.toNat := by simpa [hf, hpc] using h0
    rw [hf] at hlen
    cases hk : decodeOpcode s.cfg.opcodeMap b with
    | none =>
      refine .inl ⟨hpc, hb ▸ decodeOpcode_eq_none.mp hk, ?_⟩
      simp [State.runInstruction, hf, decode, hk, ← hb]
    | some k =>
      refine .inr ?_
      cases hd : decodeOperands k bs with
      | ok i rest => exact .inr ⟨i, rest, by simp [hf, decode, hk, hd], by simp [State.runInstruction, hf, decode, hk, hd]⟩
      | unknownOpcode op => exact absurd hd decodeOperands_known
      | missingByte n =>
        obtain ⟨hn, hk'⟩ := decodeOperands_missing hd
        have hk3 := k.bytes_range.2
        rw [List.length_cons] at hlen
        refine .inl ⟨k, hpc, hb ▸ hk, by omega, ?_⟩
        have : s.pc.toNat + n = 256 := by omega
        simp [State.runInstruction, hf, decode, hk, hd, this]
  · refine .inl ⟨by omega, ?_⟩
    have hf : s.fetchBytes = [] := List.eq_nil_of_length_eq_zero (by omega)
    simp [State.runInstruction, hf, decode]

end Machine

end Sys2Proof
end

