-- ==== Sys2Proof/Laws/Operations.lean ====
section
/-! SUPPORT. One lemma per shared operation that says what it answers: operand validation, the stack slots, commit. -/

namespace Sys2Proof.Machine

variable {s t : State} {i j : Fin 8} {r a b v : Byte} {k : Nat} {c : FaultCause}

@[simp] theorem commit_ok : commit s (.ok t) = .next t := rfl
@[simp] theorem commit_error : commit s (.error c) = .next (s.raiseFault c) := rfl
@[simp] theorem Result.ok_bind {α β : Type} (x : α) (f : α → Result β) : ((.ok x : Result α) >>= f) = f x := rfl
@[simp] theorem Result.error_bind {α β : Type} (f : α → Result β) : ((.error c : Result α) >>= f) = .error c := rfl
@[simp] theorem Result.pure_eq {α : Type} (x : α) : (pure x : Result α) = .ok x := rfl

/-- A step's end is always a next state (R80, R87). -/
theorem commit_next (x : Result State) : ∃ t, commit s x = .next t := by
  cases x <;> exact ⟨_, rfl⟩

/-! ### Operands -/

/-- A register byte of 0..7 selects that register (R62). -/
theorem State.regOperand_ok (h : r.toNat = i.val) : s.regOperand k r = .ok i := by
  have hr : r.toNat ≤ 7 := by omega
  simp only [State.regOperand, dif_pos hr]
  exact congrArg Except.ok (Fin.ext h)

/-- Any other register byte raises REG_RANGE (R62, R86). -/
theorem State.regOperand_error (h : 7 < r.toNat) :
    s.regOperand k r = .error (.regRange r (s.pc.toNat + k)) := by
  simp [State.regOperand, Nat.not_le.mpr h]

/-- A register byte either selects a register or is out of range. -/
theorem regByte_cases (r : Byte) : (∃ i : Fin 8, r.toNat = i.val) ∨ 7 < r.toNat := by
  rcases Nat.lt_or_ge 7 r.toNat with h | h
  · exact .inr h
  · exact .inl ⟨⟨r.toNat, by omega⟩, rfl⟩

theorem State.oneReg_ok (h : r.toNat = i.val) : s.oneReg r = .ok i := State.regOperand_ok h

theorem State.oneReg_error (h : 7 < r.toNat) : s.oneReg r = .error (.regRange r (s.pc.toNat + 1)) :=
  State.regOperand_error h

theorem State.twoRegs_ok (ha : a.toNat = i.val) (hb : b.toNat = j.val) : s.twoRegs a b = .ok (i, j) := by
  simp [State.twoRegs, State.regOperand_ok ha, State.regOperand_ok hb]

theorem State.twoRegs_error_first (ha : 7 < a.toNat) :
    s.twoRegs a b = .error (.regRange a (s.pc.toNat + 1)) := by
  simp [State.twoRegs, State.regOperand_error ha]

theorem State.twoRegs_error_second (ha : a.toNat = i.val) (hb : 7 < b.toNat) :
    s.twoRegs a b = .error (.regRange b (s.pc.toNat + 2)) := by
  simp [State.twoRegs, State.regOperand_ok ha, State.regOperand_error hb]

/-! ### The ALU -/

variable (op : AluOp)

@[simp] theorem State.alu_pc : (s.alu op i j).pc = s.pc := by cases op <;> rfl
@[simp] theorem State.alu_mem : (s.alu op i j).mem = s.mem := by cases op <;> rfl
@[simp] theorem State.alu_status : (s.alu op i j).status = s.status := by cases op <;> rfl
@[simp] theorem State.alu_out : (s.alu op i j).out = s.out := by cases op <;> rfl
@[simp] theorem State.alu_cfg : (s.alu op i j).cfg = s.cfg := by cases op <;> rfl

@[simp] theorem State.alu_add : s.alu .add i j = s.setReg i (aluAdd (s.reg i) (s.reg j)) := rfl
@[simp] theorem State.alu_multiply : s.alu .multiply i j = s.setReg i (aluMul (s.reg i) (s.reg j)) := rfl
@[simp] theorem State.alu_compare_reg {k : Fin 8} : (s.alu .compare i j).reg k = s.reg k := rfl
@[simp] theorem State.alu_compare_flags : (s.alu .compare i j).flags = aluCmp (s.reg i) (s.reg j) := rfl

/-! ### The stack -/

/-- A push with SP = 0 (R131). -/
theorem State.pushSlot_underflow (h : s.sp = 0#8) : s.pushSlot = .error (.stackUnderflow s.sp) := by
  simp [State.pushSlot, h]

/-- A push below STACK_FLOOR (R131). -/
theorem State.pushSlot_collision (h : s.sp ≠ 0#8) (hf : (s.sp - 1#8).toNat < s.cfg.stackFloor.val) :
    s.pushSlot = .error (.stackCollision (s.sp - 1#8)) := by
  simp only [State.pushSlot, h, hf, if_false, if_true]

/-- A push that passes the bound checks (R131). -/
theorem State.pushSlot_ok (h : s.sp ≠ 0#8) (hf : s.cfg.stackFloor.val ≤ (s.sp - 1#8).toNat) :
    s.pushSlot = .ok (s.sp - 1#8, s.setReg 7 (s.sp - 1#8)) := by
  simp only [State.pushSlot, h, Nat.not_lt.mpr hf, if_false, State.setSp_eq]

/-- The three things a push slot can be. -/
theorem State.pushSlot_cases (s : State) :
    (s.sp = 0#8 ∧ s.pushSlot = .error (.stackUnderflow s.sp)) ∨
    (s.sp ≠ 0#8 ∧ (s.sp - 1#8).toNat < s.cfg.stackFloor.val ∧
      s.pushSlot = .error (.stackCollision (s.sp - 1#8))) ∨
    (s.sp ≠ 0#8 ∧ s.cfg.stackFloor.val ≤ (s.sp - 1#8).toNat ∧
      s.pushSlot = .ok (s.sp - 1#8, s.setReg 7 (s.sp - 1#8))) := by
  by_cases h : s.sp = 0#8
  · exact .inl ⟨h, State.pushSlot_underflow h⟩
  · rcases Nat.lt_or_ge (s.sp - 1#8).toNat s.cfg.stackFloor.val with hf | hf
    · exact .inr (.inl ⟨h, hf, State.pushSlot_collision h hf⟩)
    · exact .inr (.inr ⟨h, hf, State.pushSlot_ok h hf⟩)

/-- A pop always reads: SP is in 0..255 (R132). -/
theorem State.popRead_ok : s.popRead = .ok (s.mem.read s.sp.toNat) :=
  State.memRead_ok (by have := s.sp.isLt; omega)

/-- The increment with SP = 0xFF (R132). -/
theorem State.popRelease_overflow (h : s.sp = 0xFF#8) : s.popRelease = .error (.stackOverflow s.sp) := by
  simp [State.popRelease, h]

/-- The increment otherwise (R132). -/
theorem State.popRelease_ok (h : s.sp ≠ 0xFF#8) : s.popRelease = .ok (s.setReg 7 (s.sp + 1#8)) := by
  simp only [State.popRelease, h, if_false, State.setSp_eq]

/-- A byte's own value, stored through `trunc8`, is the byte (R43). -/
@[simp] theorem trunc8_toNat (v : Byte) : trunc8 v.toNat = v := by simp [trunc8]

end Sys2Proof.Machine
end

