-- ==== Sys2Proof/Laws/Host.lean ====
section
/-! SUPPORT. The host's operations: what loading an image and placing a fetch word leave. -/

namespace Sys2Proof.Machine

/-- A load that is allowed stores one byte (R55). -/
theorem Session.load_ok {s : Session} {a : Nat} (hp : s.phase = .loading) (ha : a ≤ 255) (b : Nat) :
    s.load a b = some { s with core := { s.core with mem := s.core.mem.write a (trunc8 b) } } := by
  simp only [Session.load, hp, State.memWrite_ok ha]

/-- A load above 255 is refused as MEM_RANGE (R55). -/
theorem Session.load_refused {s : Session} {a : Nat} (hp : s.phase = .loading) (ha : 255 < a) (b : Nat) :
    s.load a b = some { s with phase := .loadRefused (.memRange a) } := by
  simp only [Session.load, hp, State.memWrite_error ha]

/-- No other load is allowed (R91). -/
theorem Session.load_none {s : Session} (hp : s.phase ≠ .loading) (a b : Nat) : s.load a b = none := by
  cases h : s.phase <;> simp_all [Session.load]

/-- What a load can do: it happened in the phase that allows it, and it stored the byte or was refused. -/
theorem Session.load_cases {s t : Session} {a b : Nat} (h : s.load a b = some t) :
    s.phase = .loading ∧
    ((a ≤ 255 ∧ t = { s with core := { s.core with mem := s.core.mem.write a (trunc8 b) } }) ∨
      (255 < a ∧ t = { s with phase := .loadRefused (.memRange a) })) := by
  by_cases hp : s.phase = .loading
  · by_cases ha : a ≤ 255
    · exact ⟨hp, .inl ⟨ha, Option.some.inj (h.symm.trans (Session.load_ok hp ha b))⟩⟩
    · exact ⟨hp, .inr ⟨by omega, Option.some.inj (h.symm.trans (Session.load_refused hp (by omega) b))⟩⟩
  · rw [Session.load_none hp] at h; cases h

/-- What a step of the host's can do: it is the core's step, and the run has started. -/
theorem Session.step_cases {s t : Session} (h : s.step = some t) :
    (∀ c, s.phase ≠ .loadRefused c) ∧
    ∃ u, Machine.step s.core = .next u ∧ t = { s with core := u, phase := .started } := by
  obtain ⟨core, phase, received⟩ := s
  cases phase <;> cases hs : Machine.step core <;> simp_all [Session.step, Session.takeStep]

/-- What a receive can do: one more event counts as received. -/
theorem Session.receive_cases {s t : Session} (h : s.receive = some t) :
    s.received < s.core.out.length ∧ t = { s with received := s.received + 1 } := by
  unfold Session.receive at h
  split at h
  · rename_i ev he
    exact ⟨(List.getElem?_eq_some_iff.mp he).1, (Option.some.inj h).symm⟩
  · cases h

/-- An image that fits is loaded byte by byte, and only memory changes (R55). -/
theorem Session.loadImage_fits (s : Session) (a : Nat) (image : List Nat) (hp : s.phase = .loading) (h : a + image.length ≤ 256) :
    ∃ m, s.loadImage a image = { s with core := { s.core with mem := m } } ∧ (s.core.mem.wf → Memory.wf m) ∧
      ∀ b, Memory.read m b =
        if a ≤ b then ((image[b - a]?).map trunc8).getD (s.core.mem.read b) else s.core.mem.read b := by
  induction image generalizing s a with
  | nil => exact ⟨s.core.mem, rfl, id, by simp⟩
  | cons v image ih =>
    simp only [List.length_cons] at h
    have ha : a ≤ 255 := by omega
    obtain ⟨m, h1, h2, h3⟩ :=
      ih { s with core := { s.core with mem := s.core.mem.write a (trunc8 v) } } (a + 1) hp (by omega)
    refine ⟨m, ?_, fun hw => h2 (Memory.wf_write hw ha), fun b => ?_⟩
    · simp only [Session.loadImage, Session.load_ok hp ha, h1]
    · rw [h3]
      simp only [Memory.read_write]
      by_cases hb : b = a
      · subst hb; simp
      · by_cases hab : a ≤ b
        · obtain ⟨d, hd⟩ : ∃ d, b - a = d + 1 := ⟨b - a - 1, by omega⟩
          rw [if_pos (by omega), if_pos hab, if_neg hb, hd, show b - (a + 1) = d by omega, List.getElem?_cons_succ]
        · rw [if_neg (by omega), if_neg hb, if_neg hab]

/-- After a refusal the loader stops. -/
theorem Session.loadImage_stopped {s : Session} (hp : s.phase ≠ .loading) (a : Nat) (image : List Nat) :
    s.loadImage a image = s := by
  cases image with
  | nil => rfl
  | cons v image => simp only [Session.loadImage, Session.load_none hp]

/-- An image that does not fit is refused at address 256 (R55). -/
theorem Session.loadImage_refused (s : Session) (a : Nat) (image : List Nat) (hp : s.phase = .loading)
    (h : 256 < a + image.length) (ha : a ≤ 256) : (s.loadImage a image).phase = .loadRefused (.memRange 256) := by
  induction image generalizing s a with
  | nil => simp only [List.length_nil] at h; omega
  | cons v image ih =>
    by_cases h1 : a ≤ 255
    · simp only [Session.loadImage, Session.load_ok hp h1]
      exact ih _ _ hp (by simp only [List.length_cons] at h; omega) (by omega)
    · obtain rfl : a = 256 := by omega
      simp only [Session.loadImage, Session.load_refused hp (a := 256) (by omega)]
      rw [Session.loadImage_stopped (by simp)]

/-- What every load keeps, the loading of an image keeps. -/
theorem Session.loadImage_keeps {P : Session → Prop} (h : ∀ {s t a b}, P s → Session.load s a b = some t → P t)
    {s : Session} (hs : P s) (a : Nat) (image : List Nat) : P (s.loadImage a image) := by
  induction image generalizing s a with
  | nil => exact hs
  | cons v image ih =>
    rw [Session.loadImage]
    split
    · exact ih (h hs ‹_›) _
    · exact hs

/-- What every operation of a kind keeps, a sequence of such operations keeps. -/
theorem Session.performAll_keeps {P : Session → Prop} {Q : HostOp → Prop}
    (h : ∀ {s t op}, P s → Q op → Session.perform s op = some t → P t) {s t : Session} {ops : List HostOp}
    (hs : P s) (hq : ∀ op ∈ ops, Q op) (ht : s.performAll ops = some t) : P t := by
  induction ops generalizing s with
  | nil => exact Option.some.inj ht ▸ hs
  | cons op ops ih =>
    rw [Session.performAll] at ht
    split at ht
    · exact ih (h hs (hq _ List.mem_cons_self) ‹_›) (fun o ho => hq o (List.mem_cons_of_mem _ ho)) ht
    · cases ht

/-- Placing bytes changes memory only, at their addresses. -/
theorem State.placeBytes_spec (s : State) (a : Nat) (bs : List Byte) :
    s.placeBytes a bs = { s with mem := (s.placeBytes a bs).mem } ∧
    ∀ b, (s.placeBytes a bs).mem.read b =
      if a ≤ b ∧ b < a + bs.length ∧ b ≤ 255 then bs.getD (b - a) 0#8 else s.mem.read b := by
  induction bs generalizing s a with
  | nil => simp only [State.placeBytes, true_and, List.length_nil]; intro b; rw [if_neg (by omega)]
  | cons v bs ih =>
    by_cases ha : a ≤ 255
    · simp only [State.placeBytes, State.memWrite_ok ha]
      obtain ⟨h1, h2⟩ := ih { s with mem := s.mem.write a (trunc8 v.toNat) } (a + 1)
      refine ⟨by rw [h1], fun b => ?_⟩
      rw [h2]
      simp only [Memory.read_write, trunc8_toNat, List.length_cons]
      by_cases hb : b = a
      · subst hb; simp [ha]
      · by_cases hc : a + 1 ≤ b ∧ b < a + 1 + bs.length ∧ b ≤ 255
        · obtain ⟨d, hd⟩ : ∃ d, b - a = d + 1 := ⟨b - a - 1, by omega⟩
          rw [if_pos hc, if_pos (by omega), hd, show b - (a + 1) = d by omega]
          rfl
        · rw [if_neg hc, if_neg hb, if_neg (by omega)]
    · simp only [State.placeBytes, State.memWrite_error (not_le.mp ha), true_and]
      intro b
      rw [if_neg (by omega)]

end Sys2Proof.Machine
end

