-- ==== Sys2Proof/Laws/Meanings.lean ====
section
/-! SUPPORT. What each meaning answers on operands that name registers, as one equation a meaning, and the REG_RANGE fault of
every form on operands that do not. -/

namespace Sys2Proof.Machine

variable {s : State} {i j : Fin 8} {r a b imm : Byte}

theorem execLdi_eq (h : r.toNat = i.val) : execLdi r imm s = .next ((s.setReg i imm).advance 3) := by
  simp [execLdi, State.oneReg_ok h, immOperand]

theorem execPrn_eq (h : r.toNat = i.val) :
    execPrn r s = .next ((s.emit (.prn (s.reg i))).advance 2) := by
  simp [execPrn, State.oneReg_ok h]

theorem aluInstr_eq (op : AluOp) (ha : a.toNat = i.val) (hb : b.toNat = j.val) :
    aluInstr op a b s = .next ((s.alu op i j).advance 3) := by
  simp [aluInstr, State.twoRegs_ok ha hb]

/-- PUSH past its operand check: the three things its slot can be. -/
theorem execPush_eq (h : r.toNat = i.val) : execPush r s =
    if s.sp = 0#8 then .next (s.raiseFault (.stackUnderflow s.sp))
    else if (s.sp - 1#8).toNat < s.cfg.stackFloor.val then .next (s.raiseFault (.stackCollision (s.sp - 1#8)))
    else .next ({ s.setReg 7 (s.sp - 1#8) with
      mem := s.mem.write (s.sp - 1#8).toNat (s.reg i) }.advance 2) := by
  have hw : (s.sp - 1#8).toNat ≤ 255 := by have := (s.sp - 1#8).isLt; omega
  rcases State.pushSlot_cases s with ⟨h0, e⟩ | ⟨h0, hf, e⟩ | ⟨h0, hf, e⟩
  · simp only [execPush, State.oneReg_ok h, e, Result.ok_bind, Result.error_bind, commit_error, h0, if_true]
  · simp only [execPush, State.oneReg_ok h, e, Result.ok_bind, Result.error_bind, commit_error, h0, hf, if_true, if_false]
  · simp only [execPush, State.oneReg_ok h, e, Result.ok_bind, Result.pure_eq, commit_ok, h0, Nat.not_lt.mpr hf, if_false,
      State.memWrite_ok hw, State.setReg_mem, trunc8_toNat]

/-- POP past its operand check. -/
theorem execPop_eq (h : r.toNat = i.val) : execPop r s =
    if (s.setReg i (s.mem.read s.sp.toNat)).sp = 0xFF#8 then .next (s.raiseFault (.stackOverflow 0xFF#8))
    else .next (((s.setReg i (s.mem.read s.sp.toNat)).setReg 7
      ((s.setReg i (s.mem.read s.sp.toNat)).sp + 1#8)).advance 2) := by
  by_cases hsp : (s.setReg i (s.mem.read s.sp.toNat)).sp = 0xFF#8
  · simp only [execPop, State.oneReg_ok h, State.popRead_ok, State.popRelease_overflow hsp, Result.ok_bind, Result.error_bind,
      commit_error, hsp, if_true]
  · simp only [execPop, State.oneReg_ok h, State.popRead_ok, State.popRelease_ok hsp, Result.ok_bind, Result.pure_eq,
      commit_ok, hsp, if_false]

/-- CALL past its operand check: the three things its slot can be. -/
theorem execCall_eq (h : r.toNat = i.val) : execCall r s =
    if s.sp = 0#8 then .next (s.raiseFault (.stackUnderflow s.sp))
    else if (s.sp - 1#8).toNat < s.cfg.stackFloor.val then .next (s.raiseFault (.stackCollision (s.sp - 1#8)))
    else .next ({ s.setReg 7 (s.sp - 1#8) with
      mem := s.mem.write (s.sp - 1#8).toNat (trunc8 (s.pc.toNat + 2)) }.jump
        ((s.setReg 7 (s.sp - 1#8)).reg i)) := by
  have hw : (s.sp - 1#8).toNat ≤ 255 := by have := (s.sp - 1#8).isLt; omega
  rcases State.pushSlot_cases s with ⟨h0, e⟩ | ⟨h0, hf, e⟩ | ⟨h0, hf, e⟩
  · simp only [execCall, State.oneReg_ok h, e, Result.ok_bind, Result.error_bind, commit_error, h0, if_true]
  · simp only [execCall, State.oneReg_ok h, e, Result.ok_bind, Result.error_bind, commit_error, h0, hf, if_true, if_false]
  · simp only [execCall, State.oneReg_ok h, e, Result.ok_bind, Result.pure_eq, commit_ok, h0, Nat.not_lt.mpr hf, if_false,
      State.memWrite_ok hw, State.setReg_mem]
    rfl

theorem execRet_eq : execRet s =
    if s.sp = 0xFF#8 then .next (s.raiseFault (.stackOverflow 0xFF#8))
    else .next ((s.setReg 7 (s.sp + 1#8)).jump (s.mem.read s.sp.toNat)) := by
  by_cases hsp : s.sp = 0xFF#8
  · simp only [execRet, State.popRead_ok, State.popRelease_overflow hsp, Result.ok_bind, Result.error_bind,
      commit_error, hsp, if_true]
  · simp only [execRet, State.popRead_ok, State.popRelease_ok hsp, Result.ok_bind, Result.pure_eq, commit_ok, hsp, if_false]

theorem execJmp_eq (h : r.toNat = i.val) : execJmp r s = .next (s.jump (s.reg i)) := by
  simp [execJmp, State.oneReg_ok h]

theorem jumpIf_eq (taken : Bool) (h : r.toNat = i.val) :
    jumpIf taken r s = .next (if taken then s.jump (s.reg i) else s.advance 2) := by
  simp [jumpIf, State.oneReg_ok h]

/-! ### REG_RANGE -/

/-- A form with one register operand, out of range (R86): whatever the rest of the meaning is. -/
theorem commit_oneReg_error (f : Fin 8 → Result State) (h : 7 < r.toNat) :
    commit s (s.oneReg r >>= f) = .next (s.raiseFault (.regRange r (s.pc.toNat + 1))) := by
  simp [State.oneReg_error h]

/-- A form with two register operands, the first out of range (R86). -/
theorem aluInstr_error_first (op : AluOp) (h : 7 < a.toNat) :
    aluInstr op a b s = .next (s.raiseFault (.regRange a (s.pc.toNat + 1))) := by
  simp [aluInstr, State.twoRegs_error_first h]

/-- A form with two register operands, the second out of range (R86). -/
theorem aluInstr_error_second (op : AluOp) (ha : a.toNat = i.val) (hb : 7 < b.toNat) :
    aluInstr op a b s = .next (s.raiseFault (.regRange b (s.pc.toNat + 2))) := by
  simp [aluInstr, State.twoRegs_error_second ha hb]

/-- Every meaning answers a next state: a fatal fault is one (R87). -/
theorem exec_next (ins : Instr) (s : State) : ∃ t, exec ins s = .next t := by
  cases ins <;> first | exact commit_next _ | exact ⟨_, rfl⟩

end Sys2Proof.Machine
end

