-- ==== Sys2Proof/Laws/PerInstr.lean ====
section
/-! SUPPORT. The per-instruction family EncodeLayout: an encoding is the instruction's opcode byte under the map, its
register operands next, and as long as its row of R64 says. -/

namespace Sys2Proof.Laws.EncodeLayout

/-- The layout of R61: byte 0 is the opcode, the register operands follow it, and the length is the row's. -/
def Statement (i : Instr) : Prop :=
  ∀ m : OpcodeMap, (encode m i).head? = some (m.byteOf i.mnemonic) ∧
    i.regOperands <+: (encode m i).tail ∧ (encode m i).length = i.bytes

theorem ldi (r imm : Byte) : Statement (.ldi r imm) := fun _ => ⟨rfl, ⟨[imm], rfl⟩, rfl⟩
theorem prn (r : Byte) : Statement (.prn r) := fun _ => ⟨rfl, ⟨[], rfl⟩, rfl⟩
theorem mul (a b : Byte) : Statement (.mul a b) := fun _ => ⟨rfl, ⟨[], rfl⟩, rfl⟩
theorem add (a b : Byte) : Statement (.add a b) := fun _ => ⟨rfl, ⟨[], rfl⟩, rfl⟩
theorem cmp (a b : Byte) : Statement (.cmp a b) := fun _ => ⟨rfl, ⟨[], rfl⟩, rfl⟩
theorem push (r : Byte) : Statement (.push r) := fun _ => ⟨rfl, ⟨[], rfl⟩, rfl⟩
theorem pop (r : Byte) : Statement (.pop r) := fun _ => ⟨rfl, ⟨[], rfl⟩, rfl⟩
theorem call (r : Byte) : Statement (.call r) := fun _ => ⟨rfl, ⟨[], rfl⟩, rfl⟩
theorem ret : Statement .ret := fun _ => ⟨rfl, ⟨[], rfl⟩, rfl⟩
theorem jmp (r : Byte) : Statement (.jmp r) := fun _ => ⟨rfl, ⟨[], rfl⟩, rfl⟩
theorem jeq (r : Byte) : Statement (.jeq r) := fun _ => ⟨rfl, ⟨[], rfl⟩, rfl⟩
theorem jne (r : Byte) : Statement (.jne r) := fun _ => ⟨rfl, ⟨[], rfl⟩, rfl⟩
theorem halt : Statement .halt := fun _ => ⟨rfl, ⟨[], rfl⟩, rfl⟩

end Sys2Proof.Laws.EncodeLayout
end

