-- ==== Sys2Proof/Laws/Step.lean ====
section
/-! SUPPORT. What a step can do, said once: the faults an instruction can raise, the state it commits, and the step's own cases. -/

namespace Sys2Proof.Machine

/-- The faults an instruction raises in a state, with their infos (R163). -/
inductive Raises (s : State) : Instr → FaultCause → Prop where
  | first {i : Instr} {r : Byte} (h : i.regOperands[0]? = some r) (hr : 7 < r.toNat) :
      Raises s i (.regRange r (s.pc.toNat + 1))
  | second {i : Instr} {a b : Byte} (h : i.regOperands = [a, b]) (ha : a.toNat ≤ 7) (hb : 7 < b.toNat) :
      Raises s i (.regRange b (s.pc.toNat + 2))
  | pushUnderflow {r : Byte} {i : Fin 8} (hi : r.toNat = i.val) (h : s.sp = 0#8) : Raises s (.push r) (.stackUnderflow s.sp)
  | pushCollision {r : Byte} {i : Fin 8} (hi : r.toNat = i.val) (h : s.sp ≠ 0#8) (hf : (s.sp - 1#8).toNat < s.cfg.stackFloor.val) :
      Raises s (.push r) (.stackCollision (s.sp - 1#8))
  | callUnderflow {r : Byte} {i : Fin 8} (hi : r.toNat = i.val) (h : s.sp = 0#8) : Raises s (.call r) (.stackUnderflow s.sp)
  | callCollision {r : Byte} {i : Fin 8} (hi : r.toNat = i.val) (h : s.sp ≠ 0#8) (hf : (s.sp - 1#8).toNat < s.cfg.stackFloor.val) :
      Raises s (.call r) (.stackCollision (s.sp - 1#8))
  | popOverflow {r : Byte} {i : Fin 8} (hi : r.toNat = i.val)
      (h : (s.setReg i (s.mem.read s.sp.toNat)).sp = 0xFF#8) : Raises s (.pop r) (.stackOverflow 0xFF#8)
  | retOverflow (h : s.sp = 0xFF#8) : Raises s .ret (.stackOverflow 0xFF#8)

/-- The state an instruction commits (R100 to R145). -/
inductive Commits (s : State) : Instr → State → Prop where
  | ldi {r imm : Byte} {i : Fin 8} (hi : r.toNat = i.val) : Commits s (.ldi r imm) ((s.setReg i imm).advance 3)
  | prn {r : Byte} {i : Fin 8} (hi : r.toNat = i.val) :
      Commits s (.prn r) ((s.emit (.prn (s.reg i))).advance 2)
  | mul {a b : Byte} {i j : Fin 8} (hi : a.toNat = i.val) (hj : b.toNat = j.val) :
      Commits s (.mul a b) ((s.alu .multiply i j).advance 3)
  | add {a b : Byte} {i j : Fin 8} (hi : a.toNat = i.val) (hj : b.toNat = j.val) :
      Commits s (.add a b) ((s.alu .add i j).advance 3)
  | cmp {a b : Byte} {i j : Fin 8} (hi : a.toNat = i.val) (hj : b.toNat = j.val) :
      Commits s (.cmp a b) ((s.alu .compare i j).advance 3)
  | push {r : Byte} {i : Fin 8} (hi : r.toNat = i.val) (h : s.sp ≠ 0#8)
      (hf : s.cfg.stackFloor.val ≤ (s.sp - 1#8).toNat) :
      Commits s (.push r) ({ s.setReg 7 (s.sp - 1#8) with
        mem := s.mem.write (s.sp - 1#8).toNat (s.reg i) }.advance 2)
  | pop {r : Byte} {i : Fin 8} (hi : r.toNat = i.val)
      (h : (s.setReg i (s.mem.read s.sp.toNat)).sp ≠ 0xFF#8) :
      Commits s (.pop r) (((s.setReg i (s.mem.read s.sp.toNat)).setReg 7
        ((s.setReg i (s.mem.read s.sp.toNat)).sp + 1#8)).advance 2)
  | call {r : Byte} {i : Fin 8} (hi : r.toNat = i.val) (h : s.sp ≠ 0#8)
      (hf : s.cfg.stackFloor.val ≤ (s.sp - 1#8).toNat) :
      Commits s (.call r) ({ s.setReg 7 (s.sp - 1#8) with
        mem := s.mem.write (s.sp - 1#8).toNat (trunc8 (s.pc.toNat + 2)) }.jump ((s.setReg 7 (s.sp - 1#8)).reg i))
  | ret (h : s.sp ≠ 0xFF#8) :
      Commits s .ret ((s.setReg 7 (s.sp + 1#8)).jump (s.mem.read s.sp.toNat))
  | jmp {r : Byte} {i : Fin 8} (hi : r.toNat = i.val) : Commits s (.jmp r) (s.jump (s.reg i))
  | jeq {r : Byte} {i : Fin 8} (hi : r.toNat = i.val) :
      Commits s (.jeq r) (if s.flags.e then s.jump (s.reg i) else s.advance 2)
  | jne {r : Byte} {i : Fin 8} (hi : r.toNat = i.val) :
      Commits s (.jne r) (if !s.flags.e then s.jump (s.reg i) else s.advance 2)
  | halt : Commits s .halt s.stopHalted

variable {s t : State} {i : Instr}

/-- An instruction raises one of its faults, and leaves the state as it was but for the status; or it commits. -/
theorem exec_answers (i : Instr) (s : State) :
    (∃ c, exec i s = .next (s.raiseFault c) ∧ Raises s i c) ∨ (∃ t, exec i s = .next t ∧ Commits s i t) := by
  have alu : ∀ (op : AluOp) (a b : Byte),
      (∃ c, aluInstr op a b s = .next (s.raiseFault c) ∧
        ((c = .regRange a (s.pc.toNat + 1) ∧ 7 < a.toNat) ∨
          (c = .regRange b (s.pc.toNat + 2) ∧ a.toNat ≤ 7 ∧ 7 < b.toNat))) ∨
      (∃ i j : Fin 8, a.toNat = i.val ∧ b.toNat = j.val ∧ aluInstr op a b s = .next ((s.alu op i j).advance 3)) := by
    intro op a b
    rcases regByte_cases a with ⟨i, hi⟩ | ha
    · rcases regByte_cases b with ⟨j, hj⟩ | hb
      · exact .inr ⟨i, j, hi, hj, aluInstr_eq op hi hj⟩
      · exact .inl ⟨_, aluInstr_error_second op hi hb, .inr ⟨rfl, by omega, hb⟩⟩
    · exact .inl ⟨_, aluInstr_error_first op ha, .inl ⟨rfl, ha⟩⟩
  cases i with
  | ldi r imm =>
    rcases regByte_cases r with ⟨i, hi⟩ | hr
    · exact .inr ⟨_, execLdi_eq hi, .ldi hi⟩
    · exact .inl ⟨_, commit_oneReg_error _ hr, .first rfl hr⟩
  | prn r =>
    rcases regByte_cases r with ⟨i, hi⟩ | hr
    · exact .inr ⟨_, execPrn_eq hi, .prn hi⟩
    · exact .inl ⟨_, commit_oneReg_error _ hr, .first rfl hr⟩
  | mul a b =>
    rcases alu .multiply a b with ⟨c, e, ⟨rfl, h⟩ | ⟨rfl, h, h'⟩⟩ | ⟨i, j, hi, hj, e⟩
    · exact .inl ⟨_, e, .first rfl h⟩
    · exact .inl ⟨_, e, .second rfl h h'⟩
    · exact .inr ⟨_, e, .mul hi hj⟩
  | add a b =>
    rcases alu .add a b with ⟨c, e, ⟨rfl, h⟩ | ⟨rfl, h, h'⟩⟩ | ⟨i, j, hi, hj, e⟩
    · exact .inl ⟨_, e, .first rfl h⟩
    · exact .inl ⟨_, e, .second rfl h h'⟩
    · exact .inr ⟨_, e, .add hi hj⟩
  | cmp a b =>
    rcases alu .compare a b with ⟨c, e, ⟨rfl, h⟩ | ⟨rfl, h, h'⟩⟩ | ⟨i, j, hi, hj, e⟩
    · exact .inl ⟨_, e, .first rfl h⟩
    · exact .inl ⟨_, e, .second rfl h h'⟩
    · exact .inr ⟨_, e, .cmp hi hj⟩
  | push r =>
    rcases regByte_cases r with ⟨i, hi⟩ | hr
    · have e := execPush_eq (s := s) hi
      split at e
      · exact .inl ⟨_, e, .pushUnderflow hi ‹_›⟩
      · split at e
        · exact .inl ⟨_, e, .pushCollision hi ‹_› ‹_›⟩
        · exact .inr ⟨_, e, .push hi ‹_› (by omega)⟩
    · exact .inl ⟨_, commit_oneReg_error _ hr, .first rfl hr⟩
  | pop r =>
    rcases regByte_cases r with ⟨i, hi⟩ | hr
    · have e := execPop_eq (s := s) hi
      split at e
      · exact .inl ⟨_, e, .popOverflow hi ‹_›⟩
      · exact .inr ⟨_, e, .pop hi ‹_›⟩
    · exact .inl ⟨_, commit_oneReg_error _ hr, .first rfl hr⟩
  | call r =>
    rcases regByte_cases r with ⟨i, hi⟩ | hr
    · have e := execCall_eq (s := s) hi
      split at e
      · exact .inl ⟨_, e, .callUnderflow hi ‹_›⟩
      · split at e
        · exact .inl ⟨_, e, .callCollision hi ‹_› ‹_›⟩
        · exact .inr ⟨_, e, .call hi ‹_› (by omega)⟩
    · exact .inl ⟨_, commit_oneReg_error _ hr, .first rfl hr⟩
  | ret =>
    have e := execRet_eq (s := s)
    split at e
    · exact .inl ⟨_, e, .retOverflow ‹_›⟩
    · exact .inr ⟨_, e, .ret ‹_›⟩
  | jmp r =>
    rcases regByte_cases r with ⟨i, hi⟩ | hr
    · exact .inr ⟨_, execJmp_eq hi, .jmp hi⟩
    · exact .inl ⟨_, commit_oneReg_error _ hr, .first rfl hr⟩
  | jeq r =>
    rcases regByte_cases r with ⟨i, hi⟩ | hr
    · exact .inr ⟨_, jumpIf_eq _ hi, .jeq hi⟩
    · exact .inl ⟨_, commit_oneReg_error _ hr, .first rfl hr⟩
  | jne r =>
    rcases regByte_cases r with ⟨i, hi⟩ | hr
    · exact .inr ⟨_, jumpIf_eq _ hi, .jne hi⟩
    · exact .inl ⟨_, commit_oneReg_error _ hr, .first rfl hr⟩
  | halt => exact .inr ⟨_, rfl, .halt⟩

/-- A fault an instruction raises is its answer. -/
theorem exec_of_raises {c : FaultCause} (h : Raises s i c) : exec i s = .next (s.raiseFault c) := by
  cases h with
  | first ho hr =>
    cases i <;> simp only [Instr.regOperands, List.getElem?_cons_zero, List.getElem?_nil, reduceCtorEq,
      Option.some.injEq] at ho <;> subst ho <;>
      first | exact commit_oneReg_error _ hr | exact aluInstr_error_first _ hr
  | second ho ha hb =>
    cases i <;> simp only [Instr.regOperands, reduceCtorEq, List.cons.injEq, and_true, and_false] at ho <;>
      obtain ⟨rfl, rfl⟩ := ho <;> exact aluInstr_error_second (i := ⟨_, Nat.lt_succ_of_le ha⟩) _ rfl hb
  | pushUnderflow hi h => rw [exec, execPush_eq hi, if_pos h]
  | pushCollision hi h hf => rw [exec, execPush_eq hi, if_neg h, if_pos hf]
  | callUnderflow hi h => rw [exec, execCall_eq hi, if_pos h]
  | callCollision hi h hf => rw [exec, execCall_eq hi, if_neg h, if_pos hf]
  | popOverflow hi h => rw [exec, execPop_eq hi, if_pos h]
  | retOverflow h => rw [exec, execRet_eq, if_pos h]

/-- A state an instruction commits is its answer. -/
theorem exec_of_commits (h : Commits s i t) : exec i s = .next t := by
  cases h with
  | ldi hi => exact execLdi_eq hi
  | prn hi => exact execPrn_eq hi
  | mul hi hj => exact aluInstr_eq .multiply hi hj
  | add hi hj => exact aluInstr_eq .add hi hj
  | cmp hi hj => exact aluInstr_eq .compare hi hj
  | push hi h hf => rw [exec, execPush_eq hi, if_neg h, if_neg (Nat.not_lt.mpr hf)]
  | pop hi h => rw [exec, execPop_eq hi, if_neg h]
  | call hi h hf => rw [exec, execCall_eq hi, if_neg h, if_neg (Nat.not_lt.mpr hf)]
  | ret h => rw [exec, execRet_eq, if_neg h]
  | jmp hi => exact execJmp_eq hi
  | jeq hi => exact jumpIf_eq _ hi
  | jne hi => exact jumpIf_eq _ hi
  | halt => rfl

/-- The inversion of an instruction's next state. -/
theorem exec_cases (h : exec i s = .next t) : (∃ c, t = s.raiseFault c ∧ Raises s i c) ∨ Commits s i t := by
  rcases exec_answers i s with ⟨c, e, hc⟩ | ⟨u, e, hu⟩ <;> rw [h] at e <;> cases e
  · exact .inl ⟨c, rfl, hc⟩
  · exact .inr hu

/-- A step is enabled while RUNNING (R81). -/
theorem step_running (h : s.status = .running) : step s = s.runInstruction := by
  simp [step, State.stepByStatus, h]

/-- In a terminal status no step is taken (R81). -/
theorem step_stopped (h : s.status ≠ .running) : step s = .fault (.notRunning s.status) := by
  cases hs : s.status <;> simp_all [step, State.stepByStatus]

/-- The inversion of a step (R89): it was enabled, and it raised MEM_RANGE, stopped as UNKNOWN, raised one of its
instruction's faults, or committed its instruction. -/
theorem step_cases (h : step s = .next t) : s.status = .running ∧
    ((255 < s.pc.toNat ∧ t = s.raiseFault (.memRange s.pc.toNat)) ∨
     (s.pc.toNat ≤ 255 ∧ (∀ k, s.cfg.opcodeMap.byteOf k ≠ s.mem.read s.pc.toNat) ∧
       t = s.stopUnknown (s.mem.read s.pc.toNat)) ∨
     (∃ k, s.pc.toNat ≤ 255 ∧ decodeOpcode s.cfg.opcodeMap (s.mem.read s.pc.toNat) = some k ∧
       256 < s.pc.toNat + k.bytes ∧ t = s.raiseFault (.memRange 256)) ∨
     (∃ i rest, decode s.cfg.opcodeMap s.fetchBytes = .ok i rest ∧
       ((∃ c, t = s.raiseFault c ∧ Raises s i c) ∨ Commits s i t))) := by
  by_cases hs : s.status = .running
  · refine ⟨hs, ?_⟩
    rw [step_running hs] at h
    rcases State.runInstruction_cases s with ⟨hp, e⟩ | ⟨hp, hu, e⟩ | ⟨k, hp, hk, hl, e⟩ | ⟨i, rest, hd, e⟩ <;> rw [e] at h
    · cases h; exact .inl ⟨hp, rfl⟩
    · cases h; exact .inr (.inl ⟨hp, hu, rfl⟩)
    · cases h; exact .inr (.inr (.inl ⟨k, hp, hk, hl, rfl⟩))
    · exact .inr (.inr (.inr ⟨i, rest, hd, exec_cases h⟩))
  · rw [step_stopped hs] at h; cases h

end Sys2Proof.Machine
end

