-- ==== Sys2Proof/Laws/Values.lean ====
section
/-! SUPPORT. The value functions: zero extension, the pc's advance, the comparison. -/

namespace Sys2Proof

/-- `zext_9` keeps the value (R6, R146). -/
@[simp] theorem zext9_toNat (v : Byte) : (zext9 v).toNat = v.toNat := by
  have h := v.isLt
  simp only [zext9, BitVec.toNat_setWidth]
  omega

/-- `trunc8(v) = v mod 256` (R6). -/
@[simp] theorem trunc8_val (v : Nat) : (trunc8 v).toNat = v % 256 := by simp [trunc8]

namespace Machine

variable {s : State} {n : Nat}

/-- The pc's advance does not wrap for an instruction that ends at an address up to 255 (R25, R88). -/
theorem State.advance_pc_toNat (h : s.pc.toNat + n ≤ 256) : (s.advance n).pc.toNat = s.pc.toNat + n := by
  simp only [State.advance, BitVec.toNat_add, BitVec.toNat_ofNat]
  omega

/-- COMPARE moves to EQ, LT or GT (R27, R113). -/
theorem aluCmp_eq_flags (p q : Byte) :
    aluCmp p q = FlagState.flags (if p = q then .eq else if p.toNat < q.toNat then .lt else .gt) := by
  by_cases h : p = q
  · simp [aluCmp, FlagState.flags, h]
  · have hne : p.toNat ≠ q.toNat := fun e => h (BitVec.eq_of_toNat_eq e)
    by_cases hl : p.toNat < q.toNat
    · simp [aluCmp, FlagState.flags, h, hne, hl]; omega
    · simp [aluCmp, FlagState.flags, h, hne, hl]; omega

/-- Exactly one flag is set after COMPARE (R113). -/
theorem aluCmp_exactlyOne (p q : Byte) : (aluCmp p q).exactlyOne = true := by
  rw [aluCmp_eq_flags]
  split
  · rfl
  · split <;> rfl

end Machine

end Sys2Proof
end

