-- ==== Sys2Proof/Tests/Slice0.lean ====
section
/-! SUPPORT. Tests whose expected results are the vectors of spec/95_test_vectors.md (named V-... as there) or the encodings of
spec/30_encoding.md rule R64, and one witness for each statement's hypotheses. -/

namespace Sys2Proof.Tests

open Sys2Proof.Machine

/-! ### Helpers -/

/-- The reset state with pc at an address and bytes stored from there. -/
def codeAt (pc : Nat) (bytes : List Byte) : State :=
  State.placeBytes { State.reset with pc := BitVec.ofNat 9 pc } pc bytes

/-- With a register set. -/
def withReg (i : Fin 8) (v : Byte) (s : State) : State := s.setReg i v

/-- With a byte of memory set. -/
def withByte (a : Nat) (v : Byte) (s : State) : State := s.placeBytes a [v]

/-- With the flags in a state of R27. -/
def withFlags (f : FlagState) (s : State) : State := { s with flags := f.flags }

/-- With a stack floor. -/
def withFloor (n : Fin 257) (s : State) : State := { s with cfg := { s.cfg with stackFloor := n } }

/-- A next state satisfies a check. -/
def nextIs (o : Host.Outcome State Fault Refusal) (p : State → Bool) : Bool :=
  match o with
  | .next t    => p t
  | .fault _   => false
  | .refused _ => false

theorem next_of_nextIs {o : Host.Outcome State Fault Refusal} {p : State → Bool} (h : nextIs o p = true) :
    ∃ t, o = .next t ∧ p t = true := by
  cases o with
  | next t => exact ⟨t, rfl, h⟩
  | fault _ => cases h
  | refused _ => cases h

/-! ### WellFormed smoke: an ill-formed term for each check, and well-formed ones beside them -/

theorem test_wf_ldi : (Instr.ldi 8#8 0#8).wellFormed = false ∧ (Instr.ldi 7#8 0xFF#8).wellFormed = true := by decide
theorem test_wf_prn : (Instr.prn 0xFF#8).wellFormed = false := by decide
theorem test_wf_mul : (Instr.mul 8#8 0#8).wellFormed = false ∧ (Instr.mul 0#8 8#8).wellFormed = false := by decide
theorem test_wf_add : (Instr.add 9#8 0#8).wellFormed = false ∧ (Instr.add 0#8 10#8).wellFormed = false := by decide
theorem test_wf_cmp : (Instr.cmp 8#8 7#8).wellFormed = false ∧ (Instr.cmp 7#8 8#8).wellFormed = false := by decide
theorem test_wf_push : (Instr.push 8#8).wellFormed = false := by decide
theorem test_wf_pop : (Instr.pop 8#8).wellFormed = false := by decide
theorem test_wf_call : (Instr.call 8#8).wellFormed = false := by decide
theorem test_wf_jmp : (Instr.jmp 9#8).wellFormed = false := by decide
theorem test_wf_jeq : (Instr.jeq 8#8).wellFormed = false := by decide
theorem test_wf_jne : (Instr.jne 15#8).wellFormed = false := by decide
theorem test_wf_plain : Instr.ret.wellFormed = true ∧ Instr.halt.wellFormed = true := by decide

/-! ### Decoding, one word a constructor, written out from R64's opcode column and R61's formats -/

theorem test_decode_ldi : decode OpcodeMap.ls8 [0b10000010#8, 0#8, 8#8] = .ok (.ldi 0#8 8#8) [] := by decide
theorem test_decode_prn : decode OpcodeMap.ls8 [0b01000111#8, 4#8] = .ok (.prn 4#8) [] := by decide
theorem test_decode_mul : decode OpcodeMap.ls8 [0b10100010#8, 0#8, 1#8] = .ok (.mul 0#8 1#8) [] := by decide
theorem test_decode_add : decode OpcodeMap.ls8 [0b10100000#8, 7#8, 1#8] = .ok (.add 7#8 1#8) [] := by decide
theorem test_decode_cmp : decode OpcodeMap.ls8 [0b10100111#8, 2#8, 3#8] = .ok (.cmp 2#8 3#8) [] := by decide
theorem test_decode_push : decode OpcodeMap.ls8 [0b01000101#8, 2#8, 0x46#8] = .ok (.push 2#8) [0x46#8] := by decide
theorem test_decode_pop : decode OpcodeMap.ls8 [0b01000110#8, 3#8] = .ok (.pop 3#8) [] := by decide
theorem test_decode_call : decode OpcodeMap.ls8 [0b01010000#8, 1#8] = .ok (.call 1#8) [] := by decide
theorem test_decode_ret : decode OpcodeMap.ls8 [0b00010001#8, 0x01#8] = .ok .ret [0x01#8] := by decide
theorem test_decode_jmp : decode OpcodeMap.ls8 [0b01010100#8, 2#8] = .ok (.jmp 2#8) [] := by decide
theorem test_decode_jeq : decode OpcodeMap.ls8 [0b01010101#8, 8#8] = .ok (.jeq 8#8) [] := by decide
theorem test_decode_jne : decode OpcodeMap.ls8 [0b01010110#8, 3#8] = .ok (.jne 3#8) [] := by decide
theorem test_decode_halt : decode OpcodeMap.ls8 [0b00000001#8] = .ok .halt [] := by decide

/-- R66: the LS-8's SUB, AND and NOP bytes are illegal here. -/
theorem test_decode_illegal :
    decode OpcodeMap.ls8 [0xA1#8, 0#8, 0#8] = .unknownOpcode 0xA1#8 ∧
    decode OpcodeMap.ls8 [0xA8#8] = .unknownOpcode 0xA8#8 ∧ decode OpcodeMap.ls8 [0x00#8] = .unknownOpcode 0x00#8 := by
  decide

/-- R82, R85: a list that ends too soon is rejected at the missing byte. -/
theorem test_decode_missing :
    decode OpcodeMap.ls8 [] = .missingByte 0 ∧ decode OpcodeMap.ls8 [0x82#8] = .missingByte 1 ∧
    decode OpcodeMap.ls8 [0x82#8, 9#8] = .missingByte 2 := by decide

/-- R64: the default map has 13 distinct values. -/
theorem test_map_valid : OpcodeMap.ls8.valid = true := by decide

/-! ### One step each, at most two vectors an instruction -/

/-- V-LDI-4. -/
theorem test_ldi_sp : nextIs (step (codeAt 0x10 [0x82, 0x07, 0x10])) (fun t => t.sp == 0x10#8 && t.pc == 0x13#9) = true := by
  decide

/-- V-LDI-8. -/
theorem test_ldi_fault_order :
    nextIs (step (codeAt 254 [0x82, 0x09])) (fun t => t.status == .fault (.memRange 256) && t.pc == 254#9) = true := by
  decide

/-- V-PRN-2. -/
theorem test_prn_unsigned :
    nextIs (step (withReg 4 0xFF#8 (codeAt 0x10 [0x47, 4]))) (fun t => t.out == [.prn 255#8]) = true := by decide

/-- V-PRN-4. -/
theorem test_prn_bad_register :
    nextIs (step (codeAt 0x10 [0x47, 0xFF])) (fun t => t.status == .fault (.regRange 0xFF#8 0x11) && t.out == []) = true := by
  decide

/-- V-MUL-3. -/
theorem test_mul_low_byte :
    nextIs (step (withReg 0 255#8 (withReg 1 255#8 (codeAt 0x10 [0xA2, 0, 1])))) (fun t => t.reg 0 == 1#8) = true := by decide

/-- V-MUL-8. -/
theorem test_mul_first_register_first :
    nextIs (step (codeAt 0x10 [0xA2, 0x0A, 8])) (fun t => t.status == .fault (.regRange 0x0A#8 0x11)) = true := by decide

/-- V-ADD-6. -/
theorem test_add_wraps_sp :
    nextIs (step (withReg 1 0x10#8 (codeAt 0x10 [0xA0, 7, 1]))) (fun t => t.sp == 0x04#8 && t.reg 1 == 0x10#8) = true := by decide

/-- V-ADD-7. -/
theorem test_add_keeps_flags :
    nextIs (step (withFlags .eq (withReg 0 1#8 (withReg 1 1#8 (codeAt 0x10 [0xA0, 0, 1])))))
      (fun t => t.reg 0 == 2#8 && t.flags == FlagState.flags .eq) = true := by decide

/-- V-CMP-5. -/
theorem test_cmp_unsigned :
    nextIs (step (withReg 0 0x80#8 (withReg 1 0x7F#8 (codeAt 0x10 [0xA7, 0, 1])))) (fun t => t.flags == FlagState.flags .gt) = true := by
  decide

/-- V-CMP-8. -/
theorem test_cmp_second_register :
    nextIs (step (withFlags .gt (codeAt 0x10 [0xA7, 0, 0x0C])))
      (fun t => t.status == .fault (.regRange 0x0C#8 0x12) && t.flags == FlagState.flags .gt) = true := by decide

/-- V-PUSH-3. -/
theorem test_push_sp :
    nextIs (step (codeAt 0x10 [0x45, 7])) (fun t => t.mem.read 0xF3 == 0xF4#8 && t.sp == 0xF3#8) = true := by decide

/-- V-PUSH-6. -/
theorem test_push_at_floor :
    nextIs (step (withFloor 0x10 (withReg 7 0x11#8 (withReg 0 7#8 (codeAt 0x20 [0x45, 0])))))
      (fun t => t.sp == 0x10#8 && t.mem.read 0x10 == 7#8) = true := by decide

/-- V-POP-3. -/
theorem test_pop_sp :
    nextIs (step (withReg 7 0xF3#8 (withByte 0xF3 0x20#8 (codeAt 0x10 [0x46, 7])))) (fun t => t.sp == 0x21#8) = true := by decide

/-- V-POP-4. -/
theorem test_pop_sp_overflow :
    nextIs (step (withReg 7 0x80#8 (withByte 0x80 0xFF#8 (codeAt 0x10 [0x46, 7]))))
      (fun t => t.status == .fault (.stackOverflow 0xFF#8) && t.sp == 0x80#8) = true := by decide

/-- V-CALL-2. -/
theorem test_call_sp :
    nextIs (step (codeAt 0x20 [0x50, 7])) (fun t => t.mem.read 0xF3 == 0x22#8 && t.sp == 0xF3#8 && t.pc == 0xF3#9) = true := by
  decide

/-- V-CALL-3. -/
theorem test_call_at_254 :
    nextIs (step (withByte 0xF3 9#8 (withReg 1 0x10#8 (codeAt 254 [0x50, 1]))))
      (fun t => t.mem.read 0xF3 == 0#8 && t.sp == 0xF3#8 && t.pc == 0x10#9) = true := by decide

/-- V-RET-4. -/
theorem test_ret :
    nextIs (step (withReg 7 0xF3#8 (withByte 0xF3 0xFF#8 (codeAt 0x10 [0x11])))) (fun t => t.pc == 0xFF#9 && t.sp == 0xF4#8) = true := by
  decide

/-- V-RET-3. -/
theorem test_ret_overflow :
    nextIs (step (withReg 7 0xFF#8 (codeAt 0x10 [0x11]))) (fun t => t.status == .fault (.stackOverflow 0xFF#8) && t.pc == 0x10#9) = true := by
  decide

/-- V-JMP-1. -/
theorem test_jmp : nextIs (step (withReg 2 21#8 (codeAt 19 [0x54, 2]))) (fun t => t.pc == 21#9) = true := by decide

/-- V-JEQ-5. -/
theorem test_jeq_to_256 :
    nextIs (step (withFlags .lt (codeAt 254 [0x55, 0])))
      (fun t => t.pc == 256#9 && nextIs (step t) (fun u => u.status == .fault (.memRange 256) && u.pc == 256#9)) = true := by
  decide

/-- V-JEQ-6. -/
theorem test_jeq_checks_register :
    nextIs (step (withFlags .lt (codeAt 0x10 [0x55, 8]))) (fun t => t.status == .fault (.regRange 8#8 0x11)) = true := by decide

/-- V-JNE-3. -/
theorem test_jne_before_cmp : nextIs (step (withReg 0 0x40#8 (codeAt 0 [0x56, 0]))) (fun t => t.pc == 0x40#9) = true := by decide

/-- V-JNE-2. -/
theorem test_jne_falls_through :
    nextIs (step (withFlags .eq (withReg 3 12#8 (codeAt 18 [0x56, 3])))) (fun t => t.pc == 20#9) = true := by decide

/-- V-HALT-2. -/
theorem test_halt_at_255 :
    nextIs (step (codeAt 255 [0x01])) (fun t => t == { codeAt 255 [0x01] with status := .halted }) = true := by decide

/-- V-ENG-1. -/
theorem test_unknown :
    nextIs (step (codeAt 3 [0xA1, 0, 0])) (fun t => t == { codeAt 3 [0xA1, 0, 0] with
      status := .unknown 0xA1#8 3#9, out := [.unknownInstruction 0xA1#8 3#9] }) = true := by decide

/-- V-ENG-4. -/
theorem test_fetch_at_256 :
    nextIs (step (codeAt 256 [])) (fun t => t == { codeAt 256 [] with status := .fault (.memRange 256) }) = true := by decide

/-- The codes of R29 and R162. -/
theorem test_codes :
    Status.code .running = 0 ∧ Status.code .halted = 1 ∧ Status.code (.unknown 0#8 0#9) = 2 ∧
    Status.code (.fault .aluUnsupported) = 3 ∧ FaultCause.code (.memRange 256) = 1 ∧ FaultCause.code .aluUnsupported = 6 := by
  decide

/-! ### The host's operations (R55, R91) -/

/-- A machine just created. -/
def created : Session := Session.create referenceConfig (Vector.replicate 7 0#8) []

/-- The host has loaded PRN R7; HALT and taken one step. -/
def printed : Option Session := created.performAll [.load 0 0x47, .load 1 7, .load 2 0x01, .step]

theorem test_load_after_first_step_not_allowed : (printed.bind fun s => s.perform (.load 3 0)) = none := by decide

theorem test_load_before_first_step : (created.perform (.load 255 0x1FF)).map (·.core.mem) = some [(255, 0xFF#8)] := by decide

theorem test_load_above_255 :
    (created.perform (.load 256 1)).map (·.phase) = some (.loadRefused (.memRange 256)) ∧
    created.performAll [.load 256 1, .step] = none ∧ created.performAll [.load 256 1, .load 0 1] = none := by decide

theorem test_run_and_receive :
    (printed.bind fun s => s.performAll [.observe, .receive, .step]).map (fun s => (s.core.status, s.core.out, s.received)) =
      some (.halted, [.prn 0xF4#8], 1) := by decide

theorem test_stopped_core_takes_no_step_until_reset :
    (printed.bind fun s => s.performAll [.step, .step]) = none ∧
    (printed.bind fun s => s.performAll [.step, .reset (Vector.replicate 7 0#8) [], .load 0 0x01, .step]).isSome = true := by decide

/-! ### Witnesses: states and operands that meet the hypotheses of each statement, at a boundary of each clause -/

theorem witness_DecodeOfEncode : ∃ m : OpcodeMap, m.valid = true := ⟨OpcodeMap.ls8, by decide⟩

theorem witness_EncodeOfDecode : decode OpcodeMap.ls8 [0x82, 0xFF, 0xFF, 0x01] = .ok (.ldi 0xFF#8 0xFF#8) [0x01] := by decide

theorem witness_IllegalOpcodesAre243 :
    OpcodeMap.ls8.valid = true ∧ (∀ k, OpcodeMap.ls8.byteOf k ≠ 0xFF#8) ∧ OpcodeMap.ls8.byteOf .halt = 0x01#8 :=
  ⟨by decide, fun k => by cases k <;> decide, by decide⟩

theorem witness_LengthFixedByOpcode :
    decode OpcodeMap.ls8 [0x46, 0x00] = .ok (.pop 0#8) [] ∧ decode OpcodeMap.ls8 [0x46, 0xFF, 1] = .ok (.pop 0xFF#8) [1] := by decide

theorem witness_StepRunsDecoded :
    (codeAt 255 [0x11]).status = .running ∧
    decode (codeAt 255 [0x11]).cfg.opcodeMap (codeAt 255 [0x11]).fetchBytes = .ok .ret [] := by decide

theorem witness_StepRunsEncodedBytes :
    (codeAt 253 [0x82, 1, 2]).status = .running ∧ (codeAt 253 [0x82, 1, 2]).cfg.opcodeMap.valid = true ∧
    (codeAt 253 [0x82, 1, 2]).pc.toNat + (Instr.ldi 1#8 2#8).bytes ≤ 256 ∧
    ∀ k, k < (Instr.ldi 1#8 2#8).bytes → (encode (codeAt 253 [0x82, 1, 2]).cfg.opcodeMap (.ldi 1#8 2#8))[k]? =
      some ((codeAt 253 [0x82, 1, 2]).mem.read ((codeAt 253 [0x82, 1, 2]).pc.toNat + k)) := by decide

theorem witness_PlacedWordRuns :
    decodeTableWord 24 0xFF0182 = some (.ldi 1#8 0xFF#8) ∧ (codeAt 253 []).pc.toNat + (Instr.ldi 1#8 0xFF#8).bytes ≤ 256 := by
  decide

theorem witness_OpcodeFetchOutOfRange : (codeAt 256 []).status = .running ∧ 255 < (codeAt 256 []).pc.toNat := by decide

theorem witness_UnknownOpcodeStops :
    (codeAt 255 [0xFF]).status = .running ∧ (codeAt 255 [0xFF]).pc.toNat ≤ 255 ∧
    ∀ k, (codeAt 255 [0xFF]).cfg.opcodeMap.byteOf k ≠ (codeAt 255 [0xFF]).mem.read (codeAt 255 [0xFF]).pc.toNat :=
  ⟨by decide, by decide, fun k => by cases k <;> decide⟩

theorem witness_OperandFetchOutOfRange :
    (codeAt 254 [0x82, 9]).status = .running ∧ (codeAt 254 [0x82, 9]).pc.toNat ≤ 255 ∧
    decodeOpcode (codeAt 254 [0x82, 9]).cfg.opcodeMap ((codeAt 254 [0x82, 9]).mem.read (codeAt 254 [0x82, 9]).pc.toNat) = some .ldi ∧
    256 < (codeAt 254 [0x82, 9]).pc.toNat + Mnemonic.ldi.bytes := by decide

theorem witness_StepEnabledExactlyWhileRunning :
    State.reset.status = .running ∧ ({ State.reset with status := .halted } : State).status ≠ .running := by decide

theorem witness_RegisterOperandTraps_first : (Instr.push 8#8).regOperands[0]? = some 8#8 ∧ 7 < (8#8).toNat := by decide

theorem witness_RegisterOperandTraps_second :
    (Instr.mul 7#8 8#8).regOperands[1]? = some 8#8 ∧ 7 < (8#8).toNat ∧
    ∀ (j : Nat) (q : Byte), j < 1 → (Instr.mul 7#8 8#8).regOperands[j]? = some q → q.toNat ≤ 7 := by
  refine ⟨by decide, by decide, fun j q hj h => ?_⟩
  obtain rfl : j = 0 := by omega
  simp only [Instr.regOperands, List.getElem?_cons_zero, Option.some.injEq] at h
  subst h
  decide

theorem witness_PushAndCallBounds :
    (7#8).toNat = (7 : Fin 8).val ∧ (withReg 7 0#8 State.reset).sp = 0#8 ∧
    (withFloor 0x10 (withReg 7 0x10#8 State.reset)).sp ≠ 0#8 ∧
    ((withFloor 0x10 (withReg 7 0x10#8 State.reset)).sp - 1#8).toNat <
      (withFloor 0x10 (withReg 7 0x10#8 State.reset)).cfg.stackFloor.val := by decide

theorem witness_PopAndRetBounds :
    (6#8).toNat = (6 : Fin 8).val ∧ (6 : Fin 8) ≠ 7 ∧ (withReg 7 0xFF#8 State.reset).sp = 0xFF#8 ∧
    (withByte 0xF4 0xFF#8 State.reset).mem.read (withByte 0xF4 0xFF#8 State.reset).sp.toNat = 0xFF#8 := by decide

theorem witness_OutcomesPerInstruction :
    ∃ t, State.reset.status = .running ∧ exec (.pop 7#8) State.reset = .next t := by
  obtain ⟨t, h, -⟩ := next_of_nextIs (o := exec (.pop 7#8) State.reset) (p := fun _ => true) (by decide)
  exact ⟨t, by decide, h⟩

theorem witness_FaultsArePrecise :
    ∃ t, step (withReg 7 0#8 (codeAt 0x10 [0x45, 0])) = .next t ∧ t.status = .fault (.stackUnderflow 0#8) := by
  obtain ⟨t, h, ht⟩ := next_of_nextIs (o := step (withReg 7 0#8 (codeAt 0x10 [0x45, 0])))
    (p := fun t => t.status == .fault (.stackUnderflow 0#8)) (by decide)
  exact ⟨t, h, by simpa using ht⟩

theorem witness_HaltsExactlyAtHalt : ∃ t, step (codeAt 255 [0x01]) = .next t ∧ t.status = .halted := by
  obtain ⟨t, h, ht⟩ := next_of_nextIs (o := step (codeAt 255 [0x01])) (p := fun t => t.status == .halted) (by decide)
  exact ⟨t, h, by simpa using ht⟩

theorem witness_PcAfterStep_running :
    decode (codeAt 254 [0x47, 1]).cfg.opcodeMap (codeAt 254 [0x47, 1]).fetchBytes = .ok (.prn 1#8) [] ∧
    ∃ t, step (codeAt 254 [0x47, 1]) = .next t ∧ t.status = .running := by
  obtain ⟨t, h, ht⟩ := next_of_nextIs (o := step (codeAt 254 [0x47, 1])) (p := fun t => t.status == .running) (by decide)
  exact ⟨by decide, t, h, by simpa using ht⟩

theorem witness_PcAfterStep_stopped : ∃ t, step (codeAt 256 []) = .next t ∧ t.status ≠ .running := by
  obtain ⟨t, h, ht⟩ := next_of_nextIs (o := step (codeAt 256 [])) (p := fun t => t.status != .running) (by decide)
  exact ⟨t, h, by simpa using ht⟩

theorem witness_FlagBits :
    (∀ a b, Instr.add 0#8 7#8 ≠ .cmp a b) ∧ (∃ t, exec (.add 0#8 7#8) State.reset = .next t) ∧
    (0#8).toNat = (0 : Fin 8).val ∧ (7#8).toNat = (7 : Fin 8).val ∧
    (∃ t, step (withFlags .eq (codeAt 0 [0x55, 0])) = .next t) ∧
    (∀ r rest, decode (codeAt 0 [0xA7, 0, 8]).cfg.opcodeMap (codeAt 0 [0xA7, 0, 8]).fetchBytes ≠ .ok (.jeq r) rest ∧
      decode (codeAt 0 [0xA7, 0, 8]).cfg.opcodeMap (codeAt 0 [0xA7, 0, 8]).fetchBytes ≠ .ok (.jne r) rest) ∧
    ∃ t, step (codeAt 0 [0xA7, 0, 8]) = .next t := by
  obtain ⟨t, h, -⟩ := next_of_nextIs (o := exec (.add 0#8 7#8) State.reset) (p := fun _ => true) (by decide)
  obtain ⟨u, hu, -⟩ := next_of_nextIs (o := step (withFlags .eq (codeAt 0 [0x55, 0]))) (p := fun _ => true) (by decide)
  obtain ⟨v, hv, -⟩ := next_of_nextIs (o := step (codeAt 0 [0xA7, 0, 8])) (p := fun _ => true) (by decide)
  have hd : decode (codeAt 0 [0xA7, 0, 8]).cfg.opcodeMap (codeAt 0 [0xA7, 0, 8]).fetchBytes = .ok (.cmp 0#8 8#8) [] := by decide
  exact ⟨by simp, ⟨t, h⟩, by decide, by decide, ⟨u, hu⟩, fun r rest => by rw [hd]; simp, v, hv⟩

theorem witness_FlagStateMachine :
    (∃ t, step (codeAt 0 [0xA7, 0, 7]) = .next t ∧ t.flags ≠ (codeAt 0 [0xA7, 0, 7]).flags) ∧
    ((withFlags .gt (codeAt 0 [0xA7, 0, 7])).flags.exactlyOne = true ∧
      ∃ t, step (withFlags .gt (codeAt 0 [0xA7, 0, 7])) = .next t) ∧
    ∃ s, Reaches (Session.boot referenceConfig (Vector.replicate 7 0xFF#8) [] [0xA7, 0, 7]).core s ∧ s.flags = FlagState.flags .gt := by
  obtain ⟨t, h, ht⟩ := next_of_nextIs (o := step (codeAt 0 [0xA7, 0, 7])) (p := fun t => t.flags != (codeAt 0 [0xA7, 0, 7]).flags)
    (by decide)
  obtain ⟨u, hu, -⟩ := next_of_nextIs (o := step (withFlags .gt (codeAt 0 [0xA7, 0, 7]))) (p := fun _ => true) (by decide)
  obtain ⟨v, hv, hf⟩ := next_of_nextIs (o := step (Session.boot referenceConfig (Vector.replicate 7 0xFF#8) [] [0xA7, 0, 7]).core)
    (p := fun v => v.flags == FlagState.flags .gt) (by decide)
  exact ⟨⟨t, h, by simpa using ht⟩, ⟨by decide, u, hu⟩, v, .tail .refl hv, by simpa using hf⟩

theorem witness_RegistersAStepChanges :
    ∃ t, step (codeAt 0 [0x82, 7, 0]) = .next t ∧ t.reg 7 ≠ (codeAt 0 [0x82, 7, 0]).reg 7 := by
  obtain ⟨t, h, ht⟩ := next_of_nextIs (o := step (codeAt 0 [0x82, 7, 0]))
    (p := fun t => t.reg 7 != (codeAt 0 [0x82, 7, 0]).reg 7) (by decide)
  exact ⟨t, h, by simpa using ht⟩

theorem witness_MemoryAStepChanges :
    ∃ t, step (withReg 7 1#8 (codeAt 8 [0x45, 7])) = .next t ∧
      t.mem.read 0 ≠ (withReg 7 1#8 (codeAt 8 [0x45, 7])).mem.read 0 := by
  obtain ⟨t, h, ht⟩ := next_of_nextIs (o := step (withReg 7 1#8 (codeAt 8 [0x45, 7])))
    (p := fun t => t.mem.read 0 != (withReg 7 1#8 (codeAt 8 [0x45, 7])).mem.read 0) (by decide)
  exact ⟨t, h, by simpa using ht⟩

theorem witness_EventsAStepEmits : ∃ t, step (codeAt 254 [0x47, 7]) = .next t := by
  obtain ⟨t, h, -⟩ := next_of_nextIs (o := step (codeAt 254 [0x47, 7])) (p := fun _ => true) (by decide)
  exact ⟨t, h⟩

theorem witness_RunKeepsOutputAndConfiguration : ∃ t, Reaches (codeAt 254 [0x47, 7]) t ∧ t.out = [.prn 0xF4#8] := by
  obtain ⟨t, h, ht⟩ := next_of_nextIs (o := step (codeAt 254 [0x47, 7])) (p := fun t => t.out == [.prn 0xF4#8]) (by decide)
  exact ⟨t, .tail .refl h, by simpa using ht⟩

theorem witness_StepReadsOnlyFetchedAndTopOfStack :
    ∃ (s t : State) (mem : Memory), mem ≠ s.mem ∧
      (∀ k, k < 3 → Memory.read mem (s.pc.toNat + k) = s.mem.read (s.pc.toNat + k)) ∧
      Memory.read mem s.sp.toNat = s.mem.read s.sp.toNat ∧ step s = .next t := by
  obtain ⟨t, h, -⟩ := next_of_nextIs (o := step (codeAt 0 [0x46, 7])) (p := fun _ => true) (by decide)
  exact ⟨_, t, (withByte 3 0xFF#8 (codeAt 0 [0x46, 7])).mem, by decide, by decide, by decide, h⟩

theorem witness_JumpToItselfNeverStops :
    (withReg 0 0x10#8 (codeAt 0x10 [0x54, 0])).status = .running ∧
    decode (withReg 0 0x10#8 (codeAt 0x10 [0x54, 0])).cfg.opcodeMap (withReg 0 0x10#8 (codeAt 0x10 [0x54, 0])).fetchBytes =
      .ok (.jmp 0#8) [0#8] ∧
    (0#8).toNat = (0 : Fin 8).val ∧
    zext9 ((withReg 0 0x10#8 (codeAt 0x10 [0x54, 0])).reg 0) = (withReg 0 0x10#8 (codeAt 0x10 [0x54, 0])).pc := by decide

theorem witness_AluCompareFunction :
    (0#8).toNat < (0xFF#8).toNat ∧ (0x7F#8).toNat < (0x80#8).toNat ∧ 0xFE#8 ≠ 0xFF#8 := by decide

/-- LdiSetsRegister, PrnEmitsRegister, MulSetsProduct, AddSetsSum, CmpSetsFlags, JmpSetsPc and ConditionalJumps: the operand bytes at
both ends of their range. -/
theorem witness_register_operands : (0#8).toNat = (0 : Fin 8).val ∧ (7#8).toNat = (7 : Fin 8).val := by decide

/-- PushStoresRegister, CallPushesReturnAddress and CallRetRoundTrip: SP = 1 without a floor, and a slot equal to the floor. -/
theorem witness_push_and_call :
    (7#8).toNat = (7 : Fin 8).val ∧ (withReg 7 1#8 State.reset).sp ≠ 0#8 ∧
    (withReg 7 1#8 State.reset).cfg.stackFloor.val ≤ ((withReg 7 1#8 State.reset).sp - 1#8).toNat ∧
    (withFloor 0x10 (withReg 7 0x11#8 State.reset)).sp ≠ 0#8 ∧
    (withFloor 0x10 (withReg 7 0x11#8 State.reset)).cfg.stackFloor.val ≤
      ((withFloor 0x10 (withReg 7 0x11#8 State.reset)).sp - 1#8).toNat := by decide

theorem witness_PopLoadsRegister :
    (6#8).toNat = (6 : Fin 8).val ∧ (6 : Fin 8) ≠ 7 ∧ (withReg 7 0xFE#8 State.reset).sp ≠ 0xFF#8 ∧
    (withByte 0xF4 0xFE#8 State.reset).mem.read (withByte 0xF4 0xFE#8 State.reset).sp.toNat ≠ 0xFF#8 := by decide

theorem witness_RetPopsReturnAddress : (withReg 7 0xFE#8 State.reset).sp ≠ 0xFF#8 := by decide

/-- PushPopRoundTrip's three clauses: r2 = R6, and r2 = R7 with a pushed value of 0xFE and of 0xFF. -/
theorem witness_PushPopRoundTrip :
    (0#8).toNat = (0 : Fin 8).val ∧ (6#8).toNat = (6 : Fin 8).val ∧ (7#8).toNat = (7 : Fin 8).val ∧ (6 : Fin 8) ≠ 7 ∧
    State.reset.sp ≠ 0#8 ∧ State.reset.cfg.stackFloor.val ≤ (State.reset.sp - 1#8).toNat ∧
    (withReg 0 0xFE#8 State.reset).sp ≠ 0#8 ∧ (withReg 0 0xFE#8 State.reset).reg 0 ≠ 0xFF#8 ∧
    (withReg 0 0xFF#8 State.reset).sp ≠ 0#8 ∧ (withReg 0 0xFF#8 State.reset).reg 0 = 0xFF#8 := by decide

theorem witness_MemoryAccess : 255 ≤ 255 ∧ 255 < 256 ∧ State.reset.mem.wf := by decide

theorem witness_CanonicalMemoriesAreEqual :
    Memory.wf [(0, 1#8), (255, 0xFF#8)] ∧ Memory.wf (Memory.write (Memory.write [] 255 0xFF#8) 0 1#8) ∧
    ∀ a, Memory.read [(0, 1#8), (255, 0xFF#8)] a = Memory.read (Memory.write (Memory.write [] 255 0xFF#8) 0 1#8) a :=
  ⟨by decide, by decide, fun _ => rfl⟩

theorem witness_BootState : (List.replicate 256 0x1FF).length ≤ 256 ∧ ([] : List Nat).length ≤ 256 :=
  ⟨Nat.le_of_eq List.length_replicate, Nat.zero_le _⟩

theorem witness_BootRefusesLongImage : 256 < (List.replicate 257 0).length := by
  rw [List.length_replicate]; decide

theorem witness_BootMeetsInvariant :
    referenceConfig.opcodeMap.valid = true ∧ Memory.wf [(255, 0xFF#8)] := by decide

/-- RunEndsInOneState: a HALT at the last address ends its run. -/
theorem witness_RunEndsInOneState : ∃ t, RunsTo (codeAt 255 [0x01]) t := by
  obtain ⟨t, h, ht⟩ := next_of_nextIs (o := step (codeAt 255 [0x01])) (p := fun t => t.status != .running) (by decide)
  exact ⟨t, by decide, .tail .refl h, by simpa using ht⟩

/-- LoadOnlyBeforeFirstStep's three clauses, at the last address that exists and the first that does not. -/
theorem witness_LoadOnlyBeforeFirstStep :
    (printed.map (·.phase)) = some .started ∧ created.phase = .loading ∧ 255 ≤ 255 ∧ 255 < 256 := by decide

theorem witness_HostStepRunsCore : (created.perform .step).isSome = true := by decide

theorem witness_HostWritesNothingAfterFirstStep :
    ∃ s t : Session, s.phase = .started ∧ (∀ op ∈ [HostOp.observe, .receive, .step], op.isReset = false) ∧
      s.performAll [.observe, .receive, .step] = some t := by
  obtain ⟨s, hs⟩ := Option.isSome_iff_exists.mp (show printed.isSome = true by decide)
  have h : (printed.bind fun s => s.performAll [.observe, .receive, .step]).isSome = true := by decide
  have hp : printed.map (·.phase) = some .started := by decide
  rw [hs] at h hp
  obtain ⟨t, ht⟩ := Option.isSome_iff_exists.mp h
  exact ⟨s, t, Option.some.inj hp, by decide, ht⟩

theorem witness_HostReceivesInOrder :
    created.core.out.length ≤ created.received ∧
    ∃ s, printed = some s ∧ s.received < s.core.out.length ∧ ∃ t, s.performAll [.receive, .step] = some t := by
  obtain ⟨s, hs⟩ := Option.isSome_iff_exists.mp (show printed.isSome = true by decide)
  have h : (printed.bind fun s => s.performAll [.receive, .step]).isSome = true := by decide
  have hr : printed.map (fun s => decide (s.received < s.core.out.length)) = some true := by decide
  rw [hs] at h hr
  obtain ⟨t, ht⟩ := Option.isSome_iff_exists.mp h
  exact ⟨by decide, s, hs, of_decide_eq_true (Option.some.inj hr), t, ht⟩

theorem witness_StepKeepsInvariant :
    (withFlags .gt (codeAt 254 [0x47, 7])).Inv ∧ ∃ t, step (withFlags .gt (codeAt 254 [0x47, 7])) = .next t := by
  obtain ⟨t, h, -⟩ := next_of_nextIs (o := step (withFlags .gt (codeAt 254 [0x47, 7]))) (p := fun _ => true) (by decide)
  exact ⟨⟨by decide, by decide, by decide, by decide, fun op a h => by cases h⟩, t, h⟩

theorem witness_HostOperationsKeepInvariant :
    Session.Inv ⟨withFlags .gt (codeAt 254 [0x47, 7]), .started, 0⟩ ∧ Memory.wf [(255, 0xFF#8)] ∧
    ∃ t, Session.perform ⟨withFlags .gt (codeAt 254 [0x47, 7]), .started, 0⟩ .step = some t := by
  obtain ⟨t, ht⟩ := Option.isSome_iff_exists.mp
    (show (Session.perform ⟨withFlags .gt (codeAt 254 [0x47, 7]), .started, 0⟩ .step).isSome = true by decide)
  exact ⟨⟨witness_StepKeepsInvariant.1, fun h => absurd rfl h, fun _ h => (by cases h), Nat.zero_le _⟩, by decide, t, ht⟩

end Sys2Proof.Tests
end

/-! ## The state's laws for runs: what a step changes, what it keeps, and the invariant

SUPPORT for the statements of spec/10_state.md, which are settled at the end. -/

namespace Sys2Proof.Machine

section Commits

variable {s t : State} {i : Instr} {f : Flags} {j k : Fin 8} {v : Byte} {n : Nat}

/-! ### What a committed instruction changes, one lemma a field -/

theorem Commits.cfg_eq (h : Commits s i t) : t.cfg = s.cfg := by
  cases h with
  | jeq hi | jne hi => split <;> rfl
  | _ => rfl

/-- CMP alone writes the flags (R26, R117). -/
theorem Commits.flags_cases (h : Commits s i t) :
    t.flags = s.flags ∨ ∃ (a b : Byte) (j k : Fin 8), i = .cmp a b ∧ t.flags = aluCmp (s.reg j) (s.reg k) := by
  cases h with
  | cmp hi hj => exact .inr ⟨_, _, _, _, rfl, rfl⟩
  | jeq hi | jne hi => left; split <;> rfl
  | _ => exact .inl rfl

/-- PRN alone emits (R101). -/
theorem Commits.out_cases (h : Commits s i t) :
    t.out = s.out ∨ ∃ (r : Byte) (j : Fin 8), i = .prn r ∧ r.toNat = j.val ∧ t.out = s.out ++ [.prn (s.reg j)] := by
  cases h with
  | prn hi => exact .inr ⟨_, _, rfl, hi, rfl⟩
  | jeq hi | jne hi => left; split <;> rfl
  | _ => exact .inl rfl

/-- HALT alone changes the run status (R145). -/
theorem Commits.status_cases (h : Commits s i t) : t.status = s.status ∨ i = .halt ∧ t = s.stopHalted := by
  cases h with
  | halt => exact .inr ⟨rfl, rfl⟩
  | jeq hi | jne hi => left; split <;> rfl
  | _ => exact .inl rfl

/-- A push alone changes memory, at its slot (R43, R131). -/
theorem Commits.mem_cases (h : Commits s i t) :
    t.mem = s.mem ∨ ∃ v, t.mem = s.mem.write (s.sp - 1#8).toNat v := by
  cases h with
  | push hi h hf | call hi h hf => exact .inr ⟨_, rfl⟩
  | jeq hi | jne hi => left; split <;> rfl
  | _ => exact .inl rfl

theorem State.jump_pc_le : (s.jump v).pc.toNat ≤ 256 := by
  have := v.isLt
  simp only [State.jump_pc, zext9_toNat]
  omega

theorem State.advance_pc_le (h : s.pc.toNat + n ≤ 256) : (s.advance n).pc.toNat ≤ 256 :=
  (State.advance_pc_toNat h).trans_le h

/-- An instruction that ends at an address up to 255 leaves pc in 0..256 (R25, R88). -/
theorem Commits.pc_le (h : Commits s i t) (hb : s.pc.toNat + i.bytes ≤ 256) : t.pc.toNat ≤ 256 := by
  cases h with
  | ldi hi | prn hi | mul hi hj | add hi hj | cmp hi hj | push hi h hf | pop hi h => exact State.advance_pc_le hb
  | call hi h hf | ret h | jmp hi => exact State.jump_pc_le
  | jeq hi | jne hi =>
    split
    · exact State.jump_pc_le
    · exact State.advance_pc_le hb
  | halt => exact le_of_add_le_left hb

/-- Where the register file differs from another in register `j` at most, a register that changed is `j` (R20). -/
theorem State.eq_of_reg_ne (h : t.reg k ≠ s.reg k) (hx : t.x = s.x.set j v) : j = k := by
  by_contra hjk
  have hr : t.reg k = (s.setReg j v).reg k := congrArg (·[k]) hx
  rw [hr, State.reg_setReg, if_neg hjk] at h
  exact h rfl

end Commits

section Steps

variable {s t : State} {i : Instr} {c : FaultCause} {rest : List Byte} {r : Byte} {k : Nat}

/-- R26, R27: a step leaves the flags alone, or ran a CMP. -/
theorem step_flags_cases (h : step s = .next t) : t.flags = s.flags ∨
    ∃ (a b : Byte) (rest : List Byte) (j k : Fin 8),
      decode s.cfg.opcodeMap s.fetchBytes = .ok (.cmp a b) rest ∧ t.flags = aluCmp (s.reg j) (s.reg k) := by
  obtain ⟨-, ⟨-, rfl⟩ | ⟨-, -, rfl⟩ | ⟨k, -, -, -, rfl⟩ | ⟨i, rest, hd, ⟨c, rfl, -⟩ | hc⟩⟩ := step_cases h
  · exact .inl rfl
  · exact .inl rfl
  · exact .inl rfl
  · exact .inl rfl
  · obtain hf | ⟨a, b, j, k, rfl, hf⟩ := hc.flags_cases
    · exact .inl hf
    · exact .inr ⟨a, b, rest, j, k, hd, hf⟩

/-- R35: no step writes the configuration. -/
theorem step_cfg_eq (h : step s = .next t) : t.cfg = s.cfg := by
  obtain ⟨-, ⟨-, rfl⟩ | ⟨-, -, rfl⟩ | ⟨k, -, -, -, rfl⟩ | ⟨i, rest, -, ⟨c, rfl, -⟩ | hc⟩⟩ := step_cases h
  · rfl
  · rfl
  · rfl
  · rfl
  · exact hc.cfg_eq

/-- What every step keeps holds of every state a run reaches. -/
theorem Reaches.keeps {P : State → Prop} (h : ∀ {t u}, P t → step t = .next u → P u) (hr : Reaches s t) (hs : P s) :
    P t := by
  induction hr with
  | refl => exact hs
  | tail _ hu ih => exact h ih hu

/-! ### A step under other flags -/

theorem State.fetchBytes_flags (f : Flags) : { s with flags := f }.fetchBytes = s.fetchBytes := rfl

/-- No fault depends on the flags. -/
theorem Raises.flags (h : Raises s i c) (f : Flags) : Raises { s with flags := f } i c := by
  cases h with
  | first ho hr => exact .first ho hr
  | second ho ha hb => exact .second ho ha hb
  | pushUnderflow hi h => exact .pushUnderflow hi h
  | pushCollision hi h hf => exact .pushCollision hi h hf
  | callUnderflow hi h => exact .callUnderflow hi h
  | callCollision hi h hf => exact .callCollision hi h hf
  | popOverflow hi h => exact .popOverflow hi h
  | retOverflow h => exact .retOverflow h

/-- The instruction does not follow the flag E (R143, R144). -/
def ignoresE (i : Instr) : Prop := (∀ r, i ≠ .jeq r) ∧ ∀ r, i ≠ .jne r

/-- Under other flags that agree on E where the instruction follows it, an instruction commits the same: CMP the very same state, every
other the same but for the flags, which it keeps (R26). -/
theorem Commits.flags {f : Flags} (h : Commits s i t) (hf : f.e = s.flags.e ∨ ignoresE i) :
    ∃ u, Commits { s with flags := f } i u ∧ (u = t ∨ u = { t with flags := f } ∧ t.flags = s.flags) := by
  cases h with
  | cmp hi hj => exact ⟨_, .cmp hi hj, .inl rfl⟩
  | ldi hi => exact ⟨_, .ldi hi, .inr ⟨rfl, rfl⟩⟩
  | prn hi => exact ⟨_, .prn hi, .inr ⟨rfl, rfl⟩⟩
  | mul hi hj => exact ⟨_, .mul hi hj, .inr ⟨rfl, rfl⟩⟩
  | add hi hj => exact ⟨_, .add hi hj, .inr ⟨rfl, rfl⟩⟩
  | push hi h h' => exact ⟨_, .push hi h h', .inr ⟨rfl, rfl⟩⟩
  | pop hi h => exact ⟨_, .pop hi h, .inr ⟨rfl, rfl⟩⟩
  | call hi h h' => exact ⟨_, .call hi h h', .inr ⟨rfl, rfl⟩⟩
  | ret h => exact ⟨_, .ret h, .inr ⟨rfl, rfl⟩⟩
  | jmp hi => exact ⟨_, .jmp hi, .inr ⟨rfl, rfl⟩⟩
  | halt => exact ⟨_, .halt, .inr ⟨rfl, rfl⟩⟩
  | jeq hi =>
    have he : f.e = s.flags.e := hf.resolve_right fun h => h.1 _ rfl
    refine ⟨_, .jeq hi, .inr ?_⟩
    simp only [he]
    split <;> exact ⟨rfl, rfl⟩
  | jne hi =>
    have he : f.e = s.flags.e := hf.resolve_right fun h => h.2 _ rfl
    refine ⟨_, .jne hi, .inr ?_⟩
    simp only [he]
    split <;> exact ⟨rfl, rfl⟩

/-- R26: a step reads of the flags E alone, in JEQ and JNE alone. -/
theorem step_flags {f : Flags} (h : step s = .next t)
    (hf : f.e = s.flags.e ∨ ∀ i rest, decode s.cfg.opcodeMap s.fetchBytes = .ok i rest → ignoresE i) :
    ∃ u, step { s with flags := f } = .next u ∧ (u = t ∨ u = { t with flags := f } ∧ t.flags = s.flags) := by
  have hs := (step_cases h).1
  rw [step_running hs, State.runInstruction] at h
  rw [step_running (s := { s with flags := f }) hs, State.runInstruction, State.fetchBytes_flags]
  cases hd : decode s.cfg.opcodeMap s.fetchBytes with
  | missingByte k => simp only [hd] at h ⊢; cases h; exact ⟨_, rfl, .inr ⟨rfl, rfl⟩⟩
  | unknownOpcode op => simp only [hd] at h ⊢; cases h; exact ⟨_, rfl, .inr ⟨rfl, rfl⟩⟩
  | ok i rest =>
    simp only [hd] at h ⊢
    obtain ⟨c, rfl, hc⟩ | hc := exec_cases h
    · exact ⟨_, exec_of_raises (hc.flags f), .inr ⟨rfl, rfl⟩⟩
    · obtain ⟨u, hu, e⟩ := hc.flags (hf.imp_right fun h => h i rest hd)
      exact ⟨u, exec_of_commits hu, e⟩

/-! ### The invariant -/

/-- The layout of R61 for every instruction, from its per-instruction family. -/
theorem encode_layout (i : Instr) : Laws.EncodeLayout.Statement i := by
  cases i with
  | ldi r imm => exact Laws.EncodeLayout.ldi r imm
  | prn r => exact Laws.EncodeLayout.prn r
  | mul a b => exact Laws.EncodeLayout.mul a b
  | add a b => exact Laws.EncodeLayout.add a b
  | cmp a b => exact Laws.EncodeLayout.cmp a b
  | push r => exact Laws.EncodeLayout.push r
  | pop r => exact Laws.EncodeLayout.pop r
  | call r => exact Laws.EncodeLayout.call r
  | ret => exact Laws.EncodeLayout.ret
  | jmp r => exact Laws.EncodeLayout.jmp r
  | jeq r => exact Laws.EncodeLayout.jeq r
  | jne r => exact Laws.EncodeLayout.jne r
  | halt => exact Laws.EncodeLayout.halt

/-- Register operand `k`, counted from 0, of the instruction at pc stands at pc + k + 1, an address up to 255 (R61, R85). -/
theorem State.regOperand_in_memory (h : decode s.cfg.opcodeMap s.fetchBytes = .ok i rest)
    (hk : i.regOperands[k]? = some r) :
    s.pc.toNat + (k + 1) ≤ 255 ∧ s.mem.read (s.pc.toNat + (k + 1)) = r := by
  obtain ⟨-, ⟨l, hl⟩, -⟩ := encode_layout i s.cfg.opcodeMap
  have he : (encode s.cfg.opcodeMap i)[k + 1]? = some r := by
    rw [← List.getElem?_tail, ← hl, List.getElem?_append_left (List.getElem?_eq_some_iff.mp hk).1, hk]
  have hlen := (List.getElem?_eq_some_iff.mp he).1
  rw [encode_length] at hlen
  obtain ⟨hpc, hmem⟩ := State.decoded_in_memory h
  exact ⟨by omega, Option.some.inj ((hmem _ hlen).trans he)⟩

/-- A fault the instruction at pc raises agrees with the state it is raised in (R162). -/
theorem Raises.agrees (h : Raises s i c) (hd : decode s.cfg.opcodeMap s.fetchBytes = .ok i rest) : c.agrees s := by
  cases h with
  | first ho hr =>
    obtain ⟨ha, hm⟩ := State.regOperand_in_memory hd ho
    exact ⟨hr, .inl rfl, ha, hm⟩
  | second ho ha hb =>
    obtain ⟨ha, hm⟩ := State.regOperand_in_memory (k := 1) hd (by rw [ho]; rfl)
    exact ⟨hb, .inr rfl, ha, hm⟩
  | pushUnderflow hi h | callUnderflow hi h => exact ⟨h, h⟩
  | pushCollision hi h hf | callCollision hi h hf => exact ⟨h, rfl, hf⟩
  | popOverflow hi h =>
    rw [State.sp_setReg] at h
    split at h
    · exact ⟨rfl, .inr h⟩
    · exact ⟨rfl, .inl h⟩
  | retOverflow h => exact ⟨rfl, .inl h⟩

theorem noReport_append_prn {evs : List Event} {v : Byte} (h : noReport evs) : noReport (evs ++ [.prn v]) := by
  intro op a hm
  simp [h op a] at hm

theorem State.statusAgrees_running (h : s.status = .running) : s.statusAgrees ↔ noReport s.out := by
  simp only [State.statusAgrees, h]

theorem Flags.legal_of_exactlyOne {f : Flags} (h : f.exactlyOne = true) : f.legal = true := by
  simp [Flags.legal, h]

/-- R27: every step keeps the flags in one of the four states. -/
theorem step_flags_legal (hl : s.flags.legal = true) (h : step s = .next t) : t.flags.legal = true := by
  obtain hf | ⟨a, b, rest, j, k, -, hf⟩ := step_flags_cases h <;> rw [hf]
  · exact hl
  · exact Flags.legal_of_exactlyOne (aluCmp_exactlyOne _ _)

theorem State.Inv.noReport (h : s.Inv) (hs : s.status = .running) : noReport s.out :=
  (State.statusAgrees_running hs).mp h.statusOk

/-- A fault that agrees with the state keeps the invariant: nothing but the status changes (R87, R164). -/
theorem State.Inv.raiseFault (h : s.Inv) (hs : s.status = .running) (hc : c.agrees s) : (s.raiseFault c).Inv where
  memWf := h.memWf
  pcRange := h.pcRange
  flagsLegal := h.flagsLegal
  mapValid := h.mapValid
  statusOk := ⟨h.noReport hs, by cases c <;> exact hc⟩

/-- An unknown opcode's stop keeps the invariant (R84). -/
theorem State.Inv.stopUnknown (h : s.Inv) (hs : s.status = .running) (hp : s.pc.toNat ≤ 255)
    (hu : ∀ k, s.cfg.opcodeMap.byteOf k ≠ s.mem.read s.pc.toNat) : (s.stopUnknown (s.mem.read s.pc.toNat)).Inv where
  memWf := h.memWf
  pcRange := h.pcRange
  flagsLegal := h.flagsLegal
  mapValid := h.mapValid
  statusOk := ⟨rfl, hp, rfl, hu, s.out, rfl, h.noReport hs⟩

/-- The run status after an instruction commits agrees with the state: the core runs on, or stands at a HALT (R29, R145). -/
theorem Commits.statusAgrees (hc : Commits s i t) (h : s.Inv) (hs : s.status = .running)
    (hd : decode s.cfg.opcodeMap s.fetchBytes = .ok i rest) : t.statusAgrees := by
  have hr := h.noReport hs
  obtain ht | ⟨rfl, rfl⟩ := hc.status_cases
  · refine (State.statusAgrees_running (ht.trans hs)).mpr ?_
    obtain ho | ⟨r, j, -, -, ho⟩ := hc.out_cases <;> rw [ho]
    · exact hr
    · exact noReport_append_prn hr
  · obtain ⟨hp, ho⟩ := State.decoded_opcode hd
    exact ⟨hr, hp, (byteOf_of_decodeOpcode ho).symm⟩

/-- Memory stays in canonical form (R30). -/
theorem Commits.memWf (hc : Commits s i t) (h : s.mem.wf) : t.mem.wf := by
  obtain hm | ⟨v, hm⟩ := hc.mem_cases <;> rw [hm]
  · exact h
  · exact Memory.wf_write h (by have := (s.sp - 1#8).isLt; omega)

/-- Every step keeps the invariant. -/
theorem State.Inv.step (h : s.Inv) (ht : Machine.step s = .next t) : t.Inv := by
  obtain ⟨hs, ⟨hp, rfl⟩ | ⟨hp, hu, rfl⟩ | ⟨k, hp, -, -, rfl⟩ | ⟨i, rest, hd, ⟨c, rfl, hc⟩ | hc⟩⟩ := step_cases ht
  · exact h.raiseFault hs ⟨Nat.le_antisymm h.pcRange hp, h.pcRange⟩
  · exact h.stopUnknown hs hp hu
  · exact h.raiseFault hs ⟨rfl, h.pcRange⟩
  · exact h.raiseFault hs (hc.agrees hd)
  · exact {
      memWf := hc.memWf h.memWf
      pcRange := hc.pc_le (State.decoded_in_memory hd).1
      flagsLegal := step_flags_legal h.flagsLegal ht
      mapValid := hc.cfg_eq ▸ h.mapValid
      statusOk := hc.statusAgrees h hs hd }

end Steps

/-! ### Reset and boot -/

section Boot

variable {cfg : Config} {regs : Vector Byte 7} {mem : Memory} {s t : Session} {a b : Nat}

/-- The registers after a reset: `INIT_REGS` in R0..R6 (R34). -/
theorem State.resetWith_reg (i : Fin 7) : (State.resetWith cfg regs mem).reg i.castSucc = regs[i] :=
  Vector.getElem_push_lt i.isLt

/-- SP after a reset (R34). -/
theorem State.resetWith_sp : (State.resetWith cfg regs mem).sp = 0xF4#8 :=
  Vector.getElem_push_eq

/-- A reset with a valid map and a canonical `INIT_MEM` meets the invariant (R34). -/
theorem State.resetWith_inv (hc : cfg.opcodeMap.valid = true) (hm : mem.wf) : (State.resetWith cfg regs mem).Inv where
  memWf := hm
  pcRange := Nat.zero_le _
  flagsLegal := rfl
  mapValid := hc
  statusOk := fun _ _ => List.not_mem_nil

theorem Session.create_inv (hc : cfg.opcodeMap.valid = true) (hm : mem.wf) : (Session.create cfg regs mem).Inv where
  core := State.resetWith_inv hc hm
  inReset := fun _ => ⟨regs, rfl⟩
  refusedAs := fun _ h => nomatch h
  received := Nat.zero_le _

/-- A load keeps the invariant: it stores a byte of a core in reset, or is refused as MEM_RANGE (R55). -/
theorem Session.Inv.load (h : s.Inv) (ht : Session.load s a b = some t) : t.Inv := by
  obtain ⟨hp, ⟨ha, rfl⟩ | ⟨ha, rfl⟩⟩ := Session.load_cases ht
  · obtain ⟨regs, hr⟩ := h.inReset (by simp [hp])
    have hr' : { s.core with mem := s.core.mem.write a (trunc8 b) } =
        State.resetWith s.core.cfg regs (s.core.mem.write a (trunc8 b)) := by rw [hr]; rfl
    exact {
      core := hr' ▸ State.resetWith_inv h.core.mapValid (Memory.wf_write h.core.memWf ha)
      inReset := fun _ => ⟨regs, hr'⟩
      refusedAs := h.refusedAs
      received := h.received }
  · exact {
      core := h.core
      inReset := fun _ => h.inReset (by simp [hp])
      refusedAs := fun _ hc => ⟨a, ha, (HostPhase.loadRefused.inj hc).symm⟩
      received := h.received }

/-- A boot leaves the flags in state NONE, whatever it loads (R27, R34). -/
theorem Session.boot_flags (image : List Nat) :
    (Session.boot cfg regs mem image).core.flags = FlagState.flags .none := by
  refine Session.loadImage_keeps (P := fun s => s.core.flags = FlagState.flags .none) (fun hs ht => ?_) rfl 0 image
  obtain ⟨-, ⟨-, rfl⟩ | ⟨-, rfl⟩⟩ := Session.load_cases ht <;> exact hs

end Boot

/-! ### The canonical form of memory -/

section Canonical

variable {m n : Memory} {a k l : Nat} {v w : Byte}

theorem Memory.read_unlisted (h : ∀ c ∈ m, c.1 ≠ a) : m.read a = unlistedByte := by
  induction m with
  | nil => rfl
  | cons c m ih =>
    rw [Memory.read, if_neg (h c List.mem_cons_self)]
    exact ih fun d hd => h d (List.mem_cons_of_mem _ hd)

theorem Memory.read_cons_self : Memory.read ((a, v) :: m) a = v := if_pos rfl

/-- A memory in canonical form lists nothing below its first address, so every cell there reads as unlisted. -/
theorem Memory.read_below_head (h : Memory.wf ((k, v) :: m)) (ha : a < k) : Memory.read ((k, v) :: m) a = unlistedByte := by
  refine Memory.read_unlisted fun c hc => ?_
  obtain rfl | hc := List.mem_cons.mp hc
  · exact ha.ne'
  · exact (ha.trans ((List.pairwise_cons.mp h.1).1 c hc)).ne'

theorem Memory.wf_tail {c : Host.Cell} (h : Memory.wf (c :: m)) : m.wf :=
  ⟨(List.pairwise_cons.mp h.1).2, fun d hd => h.2 d (List.mem_cons_of_mem _ hd)⟩

theorem Memory.head_ne_unlisted (h : Memory.wf ((k, v) :: m)) : v ≠ unlistedByte := (h.2 _ List.mem_cons_self).2

/-- The rest of a canonical memory reads as the whole, but for the first address, which it does not list. -/
theorem Memory.read_tail (h : Memory.wf ((k, v) :: m)) :
    m.read a = if a = k then unlistedByte else Memory.read ((k, v) :: m) a := by
  split
  · subst a
    exact Memory.read_unlisted fun c hc => ((List.pairwise_cons.mp h.1).1 c hc).ne'
  · rw [Memory.read, if_neg (Ne.symm ‹_›)]

/-- Memories in canonical form that read alike do not list their first cells at a lower address one than the other. -/
theorem Memory.head_le (hm : Memory.wf ((k, v) :: m)) (hn : Memory.wf ((l, w) :: n))
    (h : ∀ a, Memory.read ((k, v) :: m) a = Memory.read ((l, w) :: n) a) : l ≤ k := by
  by_contra hlt
  have hk := h k
  rw [Memory.read_cons_self, Memory.read_below_head hn (not_le.mp hlt)] at hk
  exact Memory.head_ne_unlisted hm hk

/-- A memory in canonical form in which every cell reads as unlisted lists nothing. -/
theorem Memory.eq_nil_of_read (hm : m.wf) (h : ∀ a, m.read a = unlistedByte) : m = [] := by
  cases m with
  | nil => rfl
  | cons c m => exact absurd (Memory.read_cons_self.symm.trans (h c.1)) (Memory.head_ne_unlisted hm)

/-- The canonical form is one form for what the cells read as. -/
theorem Memory.ext_read (hm : m.wf) (hn : n.wf) (h : ∀ a, m.read a = n.read a) : m = n := by
  induction m generalizing n with
  | nil => exact (Memory.eq_nil_of_read hn fun a => (h a).symm).symm
  | cons c m ih =>
    obtain ⟨k, v⟩ := c
    cases n with
    | nil => exact Memory.eq_nil_of_read hm h
    | cons d n =>
      obtain ⟨l, w⟩ := d
      obtain rfl : k = l := Nat.le_antisymm (Memory.head_le hn hm fun a => (h a).symm) (Memory.head_le hm hn h)
      obtain rfl : v = w := by simpa only [Memory.read_cons_self] using h k
      rw [ih (Memory.wf_tail hm) (Memory.wf_tail hn) fun a => by rw [Memory.read_tail hm, Memory.read_tail hn, h a]]

end Canonical

end Sys2Proof.Machine

/-! ### The statements of spec/10_state.md -/

namespace Sys2Proof.Proofs

open Sys2Proof.Machine

/-- Settles O59: each of the five things a step can do keeps the invariant. -/
theorem stepKeepsInvariant : Obligations.StepKeepsInvariant := fun _ _ h ht => h.step ht

/-- Settles O20, from what a committed instruction does to the flags and from the step under other flags. -/
theorem flagBits : Obligations.FlagBits := by
  refine ⟨fun s t i hi h => ?_, fun s a b i j ha hb => ⟨_, exec_of_commits (.cmp ha hb), rfl⟩, fun s r i hr => ?_,
    fun s t f hd h => ?_, fun s t l g h => ?_, fun _ _ _ => rfl⟩
  · obtain ⟨c, rfl, -⟩ | hc := exec_cases h
    · rfl
    · exact hc.flags_cases.resolve_right fun ⟨a, b, _, _, e, _⟩ => hi a b e
  · refine ⟨_, _, exec_of_commits (.jeq hr), exec_of_commits (.jne hr), ?_⟩
    cases s.flags.e <;> exact ⟨rfl, rfl⟩
  · obtain ⟨u, hu, rfl | ⟨rfl, ht⟩⟩ := step_flags (f := f) h
      (.inr fun i rest e => ⟨fun r hr => (hd r rest).1 (hr ▸ e), fun r hr => (hd r rest).2 (hr ▸ e)⟩)
    · exact ⟨u, hu, rfl, rfl, rfl, rfl, rfl, rfl, .inl rfl⟩
    · exact ⟨_, hu, rfl, rfl, rfl, rfl, rfl, rfl, .inr ⟨rfl, ht⟩⟩
  · obtain ⟨u, hu, rfl | ⟨rfl, ht⟩⟩ := step_flags (f := ⟨s.flags.e, l, g⟩) h (.inl rfl)
    · exact ⟨u, hu, rfl, rfl, rfl, rfl, rfl, rfl, rfl⟩
    · exact ⟨_, hu, (congrArg Flags.e ht).symm, rfl, rfl, rfl, rfl, rfl, rfl⟩

/-- Settles O21: a step keeps the flags or runs a CMP, whose comparison sets exactly one of them. -/
theorem flagStateMachine : Obligations.FlagStateMachine := by
  refine ⟨fun _ _ _ => rfl, fun s a b i j ha hb => ⟨_, exec_of_commits (.cmp ha hb), aluCmp_eq_flags _ _⟩,
    fun s t h hne => ?_, fun s t h hs => ?_, fun cfg regs mem image t hr => ?_⟩
  · obtain hf | ⟨a, b, rest, -, -, hd, -⟩ := step_flags_cases h
    · exact absurd hf hne
    · exact ⟨a, b, rest, hd⟩
  · obtain hf | ⟨a, b, rest, j, k, -, hf⟩ := step_flags_cases h <;> rw [hf]
    · exact hs
    · exact aluCmp_exactlyOne _ _
  · exact hr.keeps (P := fun s => s.flags.legal = true) step_flags_legal (by rw [Session.boot_flags]; rfl)

/-- Settles O22: faults and stops keep the registers, and a committed instruction sets those of its row. -/
theorem registersAStepChanges : Obligations.RegistersAStepChanges := by
  intro s t j h hne
  obtain ⟨-, ⟨-, rfl⟩ | ⟨-, -, rfl⟩ | ⟨k, -, -, -, rfl⟩ | ⟨i, rest, hd, ⟨c, rfl, -⟩ | hc⟩⟩ := step_cases h
  · exact absurd rfl hne
  · exact absurd rfl hne
  · exact absurd rfl hne
  · exact absurd rfl hne
  · refine ⟨i, rest, hd, ?_⟩
    cases hc with
    | ldi hi | mul hi hj | add hi hj => exact State.eq_of_reg_ne hne rfl ▸ hi
    | push hi h hf | call hi h hf | ret h => exact (State.eq_of_reg_ne hne rfl).symm
    | pop hi h =>
      by_cases h7 : j = 7
      · exact .inr h7
      · rw [State.advance_reg, State.reg_setReg, if_neg (Ne.symm h7)] at hne
        exact .inl (State.eq_of_reg_ne hne rfl ▸ hi)
    | prn hi | cmp hi hj | jmp hi | halt => exact hne rfl
    | jeq hi | jne hi => split at hne <;> exact hne rfl

/-- Settles O24: only a committed PRN and an unknown opcode's stop emit. -/
theorem eventsAStepEmits : Obligations.EventsAStepEmits := by
  intro s t h
  obtain ⟨hs, ⟨-, rfl⟩ | ⟨-, -, rfl⟩ | ⟨k, -, -, -, rfl⟩ | ⟨i, rest, hd, ⟨c, rfl, -⟩ | hc⟩⟩ := step_cases h
  · exact .inl ⟨rfl, fun _ _ => nofun⟩
  · exact .inr (.inr ⟨rfl, rfl⟩)
  · exact .inl ⟨rfl, fun _ _ => nofun⟩
  · exact .inl ⟨rfl, fun _ _ => nofun⟩
  · obtain ht | ⟨-, rfl⟩ := hc.status_cases
    · have ht := ht.trans hs
      obtain ho | ⟨r, j, rfl, hj, ho⟩ := hc.out_cases
      · exact .inl ⟨ho, by simp [ht]⟩
      · exact .inr (.inl ⟨r, rest, j, hd, hj, ho, ht⟩)
    · exact .inl ⟨rfl, fun _ _ => nofun⟩

/-- Settles O25: every step keeps `out` as a head of what it leaves, and the configuration. -/
theorem runKeepsOutputAndConfiguration : Obligations.RunKeepsOutputAndConfiguration := by
  intro s t hr
  refine hr.keeps (P := fun t => s.out <+: t.out ∧ t.cfg = s.cfg) (fun ⟨ho, hc⟩ h => ⟨ho.trans ?_, (step_cfg_eq h).trans hc⟩)
    ⟨List.prefix_rfl, rfl⟩
  obtain ⟨e, -⟩ | ⟨r, rest, i, -, -, e, -⟩ | ⟨-, e⟩ := eventsAStepEmits _ _ h <;> rw [e]
  · exact List.prefix_append _ _
  · exact List.prefix_append _ _

/-- Settles O47, by induction on the two lists. -/
theorem canonicalMemoriesAreEqual : Obligations.CanonicalMemoriesAreEqual := fun _ _ => Memory.ext_read

/-- Settles O48: an image that fits changes the reset state's memory only. -/
theorem bootState : Obligations.BootState := by
  intro cfg regs mem image hlen
  obtain ⟨m, hb, -, hread⟩ := Session.loadImage_fits (Session.create cfg regs mem) 0 image rfl (by omega)
  refine ⟨State.resetWith cfg regs m, hb, State.resetWith_sp, State.resetWith_reg, rfl, rfl, rfl, rfl, rfl, fun a => ?_⟩
  exact (hread a).trans (if_pos (Nat.zero_le a))

/-- Settles O57: the machine as created meets the invariant, and every load keeps it. -/
theorem bootMeetsInvariant : Obligations.BootMeetsInvariant := fun _ _ _ image hc hm =>
  Session.loadImage_keeps Session.Inv.load (Session.create_inv hc hm) 0 image

/-- Settles O55. -/
theorem resetValues : Obligations.ResetValues :=
  ⟨by decide, rfl, rfl, fun _ => rfl, rfl, rfl, rfl, rfl⟩

/-- Settles O56: State.reset is a reset with a valid map and the empty memory. -/
theorem resetMeetsInvariant : Obligations.ResetMeetsInvariant := State.resetWith_inv (by decide) Memory.wf_nil

end Sys2Proof.Proofs

/-! ## The memory's laws for a step and for the host

SUPPORT for the statements of spec/20_memory.md, which are settled at the end. -/

namespace Sys2Proof.Machine

section MemoryOfAStep

variable {s t : State} {i : Instr} {c : FaultCause} {a : Nat} {m : Memory}

/-! ### What a write leaves -/

/-- The written byte reads as the value modulo 256 (R43). -/
theorem Memory.read_write_toNat (m : Memory) (a v : Nat) : ((m.write a (trunc8 v)).read a).toNat = v % 256 := by
  rw [Memory.read_write, if_pos rfl, trunc8_val]

/-- A write changes no other byte (R43). -/
theorem State.sameMemBut_write (s : State) (a : Nat) (w : Byte) : sameMemBut [a] s { s with mem := s.mem.write a w } :=
  fun _ hb => Memory.read_write.trans (if_neg fun e => hb (List.mem_singleton.mpr e))

/-! ### The byte a step changes -/

/-- An instruction that commits another memory is a PUSH or a CALL that passed the bound checks of its slot (R131). -/
theorem Commits.pushes_of_mem_ne (h : Commits s i t) (hne : t.mem ≠ s.mem) :
    s.sp ≠ 0#8 ∧ s.cfg.stackFloor.val ≤ (s.sp - 1#8).toNat ∧ ∃ r, i = .push r ∨ i = .call r := by
  cases h with
  | push hi h hf => exact ⟨h, hf, _, .inl rfl⟩
  | call hi h hf => exact ⟨h, hf, _, .inr rfl⟩
  | jeq hi | jne hi => split at hne <;> exact absurd rfl hne
  | _ => exact absurd rfl hne

/-- The byte an instruction changes is the slot below SP (R43, R131). -/
theorem Commits.eq_slot_of_read_ne (h : Commits s i t) (hne : t.mem.read a ≠ s.mem.read a) : a = (s.sp - 1#8).toNat := by
  obtain hm | ⟨v, hm⟩ := h.mem_cases <;> rw [hm] at hne
  · exact absurd rfl hne
  · by_contra ha
    exact hne (Memory.read_write.trans (if_neg ha))

/-! ### A step under another memory -/

/-- Of two memories each is left alone, or the same byte is written to both at address `a`. -/
def Memory.changeAlike (a : Nat) (m m' n n' : Memory) : Prop :=
  (m' = m ∧ n' = n) ∨ ∃ v, m' = m.write a v ∧ n' = n.write a v

/-- Memories that change alike read, at each address, as before, or alike where the byte was written. -/
theorem Memory.changeAlike.read {m m' n n' : Memory} (h : Memory.changeAlike a m m' n n') (b : Nat) :
    (m'.read b = m.read b ∧ n'.read b = n.read b) ∨ (n'.read b = m'.read b ∧ b = a) := by
  obtain ⟨rfl, rfl⟩ | ⟨v, rfl, rfl⟩ := h
  · exact .inl ⟨rfl, rfl⟩
  · simp only [Memory.read_write]
    split
    · exact .inr ⟨rfl, ‹_›⟩
    · exact .inl ⟨rfl, rfl⟩

/-- A fetch sees memory at pc, pc + 1 and pc + 2 only (R82, R85). -/
theorem State.fetchBytes_mem (h : ∀ k, k < 3 → m.read (s.pc.toNat + k) = s.mem.read (s.pc.toNat + k)) :
    { s with mem := m }.fetchBytes = s.fetchBytes := by
  refine List.ext_getElem? fun k => ?_
  rw [State.fetchBytes_getElem?, State.fetchBytes_getElem?]
  split
  · exact congrArg some (h k (And.left ‹_›))
  · rfl

/-- A fault depends on memory through the top of the stack only: POP R7's, by the popped byte (R134). -/
theorem Raises.mem (h : Raises s i c) (hsp : m.read s.sp.toNat = s.mem.read s.sp.toNat) :
    Raises { s with mem := m } i c := by
  cases h with
  | first ho hr => exact .first ho hr
  | second ho ha hb => exact .second ho ha hb
  | pushUnderflow hi h => exact .pushUnderflow hi h
  | pushCollision hi h hf => exact .pushCollision hi h hf
  | callUnderflow hi h => exact .callUnderflow hi h
  | callCollision hi h hf => exact .callCollision hi h hf
  | popOverflow hi h => rw [← hsp] at h; exact .popOverflow hi h
  | retOverflow h => exact .retOverflow h

/-- Under another memory with the same top of the stack an instruction commits the same state but for the memory, and changes both
memories alike, in the slot below SP. -/
theorem Commits.mem (h : Commits s i t) (hsp : m.read s.sp.toNat = s.mem.read s.sp.toNat) :
    ∃ m', Commits { s with mem := m } i { t with mem := m' } ∧
      Memory.changeAlike (s.sp - 1#8).toNat s.mem t.mem m m' := by
  cases h with
  | ldi hi => exact ⟨m, .ldi hi, .inl ⟨rfl, rfl⟩⟩
  | prn hi => exact ⟨m, .prn hi, .inl ⟨rfl, rfl⟩⟩
  | mul hi hj => exact ⟨m, .mul hi hj, .inl ⟨rfl, rfl⟩⟩
  | add hi hj => exact ⟨m, .add hi hj, .inl ⟨rfl, rfl⟩⟩
  | cmp hi hj => exact ⟨m, .cmp hi hj, .inl ⟨rfl, rfl⟩⟩
  | push hi h hf => exact ⟨_, .push hi h hf, .inr ⟨_, rfl, rfl⟩⟩
  | call hi h hf => exact ⟨_, .call hi h hf, .inr ⟨_, rfl, rfl⟩⟩
  | pop hi h => rw [← hsp] at h ⊢; exact ⟨m, .pop hi h, .inl ⟨rfl, rfl⟩⟩
  | ret h => rw [← hsp]; exact ⟨m, .ret h, .inl ⟨rfl, rfl⟩⟩
  | jmp hi => exact ⟨m, .jmp hi, .inl ⟨rfl, rfl⟩⟩
  | halt => exact ⟨m, .halt, .inl ⟨rfl, rfl⟩⟩
  | jeq hi =>
    refine ⟨m, ?_, .inl ⟨by split <;> rfl, rfl⟩⟩
    convert Commits.jeq (s := { s with mem := m }) hi using 1
    split <;> rfl
  | jne hi =>
    refine ⟨m, ?_, .inl ⟨by split <;> rfl, rfl⟩⟩
    convert Commits.jne (s := { s with mem := m }) hi using 1
    split <;> rfl

/-- R40, R42: a step depends on memory through the bytes at pc, pc + 1, pc + 2 and SP only, and changes any two memories that agree on
these alike. -/
theorem step_mem (h : step s = .next t)
    (hf : ∀ k, k < 3 → m.read (s.pc.toNat + k) = s.mem.read (s.pc.toNat + k))
    (hsp : m.read s.sp.toNat = s.mem.read s.sp.toNat) :
    ∃ m', step { s with mem := m } = .next { t with mem := m' } ∧
      Memory.changeAlike (s.sp - 1#8).toNat s.mem t.mem m m' := by
  have hs := (step_cases h).1
  rw [step_running hs, State.runInstruction] at h
  rw [step_running (s := { s with mem := m }) hs, State.runInstruction, State.fetchBytes_mem hf]
  cases hd : decode s.cfg.opcodeMap s.fetchBytes with
  | missingByte k => simp only [hd] at h ⊢; cases h; exact ⟨m, rfl, .inl ⟨rfl, rfl⟩⟩
  | unknownOpcode op => simp only [hd] at h ⊢; cases h; exact ⟨m, rfl, .inl ⟨rfl, rfl⟩⟩
  | ok i rest =>
    simp only [hd] at h ⊢
    obtain ⟨c, rfl, hc⟩ | hc := exec_cases h
    · exact ⟨m, exec_of_raises (hc.mem hsp), .inl ⟨rfl, rfl⟩⟩
    · obtain ⟨m', hm, e⟩ := hc.mem hsp
      exact ⟨m', exec_of_commits hm, e⟩

end MemoryOfAStep

/-- After a refused load no step is allowed (R55). -/
theorem Session.perform_step_none {s : Session} {c : FaultCause} (h : s.phase = .loadRefused c) : s.perform .step = none := by
  simp only [Session.perform, Session.step, h]

end Sys2Proof.Machine

/-! ### The statements of spec/20_memory.md -/

namespace Sys2Proof.Proofs

open Sys2Proof.Machine

/-- Settles O23: faults and stops keep memory, and a committed instruction writes a push's slot at most. -/
theorem memoryAStepChanges : Obligations.MemoryAStepChanges := by
  intro s t a h hne
  obtain ⟨-, ⟨-, rfl⟩ | ⟨-, -, rfl⟩ | ⟨k, -, -, -, rfl⟩ | ⟨i, rest, hd, ⟨c, rfl, -⟩ | hc⟩⟩ := step_cases h
  · exact absurd rfl hne
  · exact absurd rfl hne
  · exact absurd rfl hne
  · exact absurd rfl hne
  · obtain rfl := hc.eq_slot_of_read_ne hne
    obtain ⟨h0, hf, r, rfl | rfl⟩ := hc.pushes_of_mem_ne fun e => hne (by rw [e])
    · exact ⟨rfl, h0, hf, r, rest, .inl hd⟩
    · exact ⟨rfl, h0, hf, r, rest, .inr hd⟩

/-- Settles O26, from the step under another memory. -/
theorem stepReadsOnlyFetchedAndTopOfStack : Obligations.StepReadsOnlyFetchedAndTopOfStack := by
  intro s t mem hf hsp h
  obtain ⟨m, hu, hm⟩ := step_mem h hf hsp
  exact ⟨_, hu, rfl, rfl, rfl, rfl, rfl, rfl, hm.read⟩

/-- Settles O46, from the access operations' laws on either side of 255. -/
theorem memoryAccess : Obligations.MemoryAccess := fun s a v =>
  ⟨fun ha => ⟨State.memRead_ok ha, _, State.memWrite_ok ha v, Memory.read_write_toNat _ a v, s.sameMemBut_write a _,
      fun hw => Memory.wf_write hw ha, fun _ _ => rfl, rfl, rfl, rfl, rfl, rfl⟩,
    fun ha => ⟨State.memRead_error ha, State.memWrite_error ha v⟩⟩

/-- Settles O49: the load at address 256 is refused, and a session whose load was refused takes no step. -/
theorem bootRefusesLongImage : Obligations.BootRefusesLongImage := by
  intro cfg regs mem image hlen
  have hp := Session.loadImage_refused (Session.create cfg regs mem) 0 image rfl (by omega) (by omega)
  exact ⟨hp, Session.perform_step_none hp⟩

/-- Settles O51, from what a load does in each phase and on either side of 255. -/
theorem loadOnlyBeforeFirstStep : Obligations.LoadOnlyBeforeFirstStep := by
  refine fun s a b => ⟨fun hp => Session.load_none hp a b, fun hp ha => ?_, fun hp ha => ?_⟩
  · exact ⟨_, Session.load_ok hp ha b, Memory.read_write_toNat _ a b, s.core.sameMemBut_write a _, fun _ _ => rfl, rfl,
      rfl, rfl, rfl, rfl⟩
  · exact ⟨_, Session.load_refused hp ha b, rfl, rfl, Session.perform_step_none rfl,
      Session.load_none (s := { s with phase := .loadRefused (.memRange a) }) nofun⟩

end Sys2Proof.Proofs

/-! ## The decoder's and the encoder's laws

SUPPORT for the statements of spec/30_encoding.md, which are settled at the end. -/

namespace Sys2Proof

section Encoding

variable {m : OpcodeMap} {op : Byte} {k : Mnemonic} {i : Instr} {bs rest : List Byte} {n : Nat}

/-! ### Decoding an encoding -/

/-- An encoding begins with its row's opcode byte (R61). -/
theorem encode_eq_cons (m : OpcodeMap) (i : Instr) : encode m i = m.byteOf i.mnemonic :: (encode m i).tail :=
  List.eq_cons_of_mem_head? (Machine.encode_layout i m).1

/-- The operand bytes of an encoding decode to its instruction, at every value (R61, R65). -/
theorem decodeOperands_encode (m : OpcodeMap) (i : Instr) (rest : List Byte) :
    decodeOperands i.mnemonic ((encode m i).tail ++ rest) = .ok i rest := by
  cases i <;> rfl

/-- A known opcode leaves the bytes after it to its row's operands (R60, R65). -/
theorem decode_cons_of_decodeOpcode (h : decodeOpcode m op = some k) : decode m (op :: bs) = decodeOperands k bs := by
  simp only [decode, h]

/-! ### The opcode bytes of a map -/

/-- An opcode byte is rejected exactly when the lookup finds no row, whatever follows it (R66, R67). -/
theorem decode_cons_eq_unknownOpcode : decode m (op :: bs) = .unknownOpcode op ↔ decodeOpcode m op = none := by
  cases h : decodeOpcode m op with
  | none => simp only [decode, h]
  | some k => simp only [decode_cons_of_decodeOpcode h, decodeOperands_known, reduceCtorEq]

/-- The byte values that a map gives to its rows, in the order of `Mnemonic.all` (R64). -/
def OpcodeMap.values (m : OpcodeMap) : List Nat := (Mnemonic.all.map m.byteOf).map BitVec.toNat

theorem OpcodeMap.length_values (m : OpcodeMap) : m.values.length = 13 := rfl

/-- The values of a valid map are distinct (R64). -/
theorem OpcodeMap.nodup_values (hm : m.valid = true) : m.values.Nodup :=
  (of_decide_eq_true hm).map fun _ _ => BitVec.eq_of_toNat_eq

/-- The values are the byte values that the lookup finds a row for (R65). -/
theorem OpcodeMap.mem_values : n ∈ m.values ↔ n < 256 ∧ (decodeOpcode m (BitVec.ofNat 8 n)).isNone = false := by
  simp only [Option.isNone_eq_false_iff, Option.isSome_iff_ne_none, ne_eq, decodeOpcode_eq_none, not_forall, not_not]
  constructor
  · intro h
    obtain ⟨b, hb, rfl⟩ := List.mem_map.mp h
    obtain ⟨k, -, rfl⟩ := List.mem_map.mp hb
    exact ⟨(m.byteOf k).isLt, k, by rw [BitVec.ofNat_toNat, BitVec.setWidth_eq]⟩
  · rintro ⟨hn, k, hk⟩
    refine List.mem_map.mpr ⟨m.byteOf k, List.mem_map_of_mem (Mnemonic.mem_all k), ?_⟩
    rw [hk, BitVec.toNat_ofNat, Nat.mod_eq_of_lt hn]

/-- Under a valid map the lookup finds a row for as many byte values as there are rows: these values are the map's own (R64, R65). -/
theorem OpcodeMap.perm_values (hm : m.valid = true) :
    ((List.range 256).filter fun n => !(decodeOpcode m (BitVec.ofNat 8 n)).isNone).Perm m.values :=
  (List.perm_ext_iff_of_nodup (List.nodup_range.filter _) (OpcodeMap.nodup_values hm)).mpr fun n => by
    rw [OpcodeMap.mem_values, List.mem_filter, List.mem_range, Bool.not_eq_true']

end Encoding

/-! ### Register operands out of range -/

/-- A second register operand is the last (R61). -/
theorem Instr.regOperands_of_second {i : Instr} {r : Byte} {k : Nat} (h : i.regOperands[k + 1]? = some r) :
    k = 0 ∧ ∃ a, i.regOperands = [a, r] := by
  cases i with
  | mul a b | add a b | cmp a b =>
    cases k with
    | zero => cases h; exact ⟨rfl, a, rfl⟩
    | succ k => cases h
  | _ => cases h

/-- The first register operand above 7 raises REG_RANGE with its own address (R62, R86). -/
theorem Machine.Raises.of_regOperand {s : Machine.State} {i : Instr} {r : Byte} {k : Nat} (h : i.regOperands[k]? = some r)
    (hr : 7 < r.toNat) (hlow : ∀ (j : Nat) (q : Byte), j < k → i.regOperands[j]? = some q → q.toNat ≤ 7) :
    Machine.Raises s i (.regRange r (s.pc.toNat + k + 1)) := by
  cases k with
  | zero => exact .first h hr
  | succ k =>
    obtain ⟨rfl, a, ho⟩ := Instr.regOperands_of_second h
    exact .second ho (hlow 0 a Nat.zero_lt_one (by rw [ho]; rfl)) hr

end Sys2Proof

/-! ### The statements of spec/30_encoding.md -/

namespace Sys2Proof.Proofs

open Sys2Proof.Machine

/-- Settles O2: a valid map finds the row by its own opcode byte, and the operand bytes stand as the row's format reads them. -/
theorem decodeOfEncode : Obligations.DecodeOfEncode := by
  intro m hm i rest
  rw [encode_eq_cons, List.cons_append, decode_cons_of_decodeOpcode (decodeOpcode_byteOf hm _)]
  exact decodeOperands_encode m i rest

/-- Settles O3, from the inversion of a decoding; no bytes decode to no instruction. -/
theorem encodeOfDecode : Obligations.EncodeOfDecode := by
  intro m bs i rest h
  cases bs with
  | nil => cases h
  | cons op bs => exact (decode_cons_ok h).2

/-- Settles O4: of the 256 byte values all but the map's own 13 find no row. -/
theorem illegalOpcodesAre243 : Obligations.IllegalOpcodesAre243 := by
  intro m hm
  refine ⟨fun op bs => decode_cons_eq_unknownOpcode.trans decodeOpcode_eq_none, ?_⟩
  have hsplit := List.length_eq_length_filter_add (l := List.range 256) fun n => (decodeOpcode m (BitVec.ofNat 8 n)).isNone
  rw [List.length_range, (OpcodeMap.perm_values hm).length_eq, OpcodeMap.length_values] at hsplit
  omega

/-- Settles O5: the lookup of the opcode byte fixes the row, and a decoding uses up the encoding's bytes. -/
theorem lengthFixedByOpcode : Obligations.LengthFixedByOpcode := by
  intro m op bs bs' i i' rest rest' h h'
  obtain ⟨hk, he⟩ := decode_cons_ok h
  have hmn : i.mnemonic = i'.mnemonic := Option.some.inj (hk.symm.trans (decode_cons_ok h').1)
  have hlen := congrArg List.length he
  rw [List.length_cons, List.length_append, encode_length] at hlen
  exact ⟨hmn, congrArg Mnemonic.bytes hmn, Instr.bytes_pos, Instr.bytes_le, hlen⟩

/-- Settles O13: the first register operand above 7 is one of the faults an instruction raises, and a fault raised is its answer. -/
theorem registerOperandTraps : Obligations.RegisterOperandTraps := fun _ _ _ _ h hr hlow =>
  exec_of_raises (.of_regOperand h hr hlow)

/-- Settles O1, by decoding each word. -/
theorem sampleWordsDecode : Obligations.SampleWordsDecode := by
  unfold Obligations.SampleWordsDecode
  decide

end Sys2Proof.Proofs

/-! ## The engine's laws: the step by what the fetch decodes to, where a run ends, and the host's operations

SUPPORT for the statements of spec/40_engine.md, which are settled at the end. -/

namespace Sys2Proof

/-- Operand bytes that end before the row's last are missing the next one (R85). -/
theorem decodeOperands_short {k : Mnemonic} {bs : List Byte} (h : bs.length + 1 < k.bytes) :
    decodeOperands k bs = .missingByte (bs.length + 1) := by
  cases hd : decodeOperands k bs with
  | missingByte n => rw [(decodeOperands_missing hd).1]
  | unknownOpcode op => exact absurd hd decodeOperands_known
  | ok i rest =>
    obtain ⟨rfl, he⟩ := decodeOperands_ok (m := OpcodeMap.ls8) hd
    have hlen := congrArg List.length he
    rw [List.length_cons, List.length_append, encode_length, Instr.bytes] at hlen
    omega

/-- A table word's bytes are the encoding of its instruction and a rest (R61, R64). -/
theorem tableBytes_of_decodeTableWord {nbits w : Nat} {i : Instr} (h : decodeTableWord nbits w = some i) :
    ∃ rest, tableBytes nbits w = encode OpcodeMap.ls8 i ++ rest := by
  rw [decodeTableWord] at h
  split at h
  · cases h; exact ⟨_, Proofs.encodeOfDecode _ _ _ _ ‹_›⟩
  · cases h
  · cases h

namespace Machine

section Engine

variable {s t u : State} {i : Instr} {rest : List Byte} {k : Nat} {op : Byte} {c : FaultCause}

/-! ### The step by what the fetch decodes to -/

/-- R89: a decoded instruction is what the step runs. -/
theorem step_decoded (hs : s.status = .running) (hd : decode s.cfg.opcodeMap s.fetchBytes = .ok i rest) :
    step s = exec i s := by
  rw [step_running hs, State.runInstruction, hd]

/-- R84: an unknown opcode stops the run. -/
theorem step_unknownOpcode (hs : s.status = .running) (hd : decode s.cfg.opcodeMap s.fetchBytes = .unknownOpcode op) :
    step s = .next (s.stopUnknown op) := by
  rw [step_running hs, State.runInstruction, hd]

/-- R82, R85: a missing byte raises MEM_RANGE with its address. -/
theorem step_missingByte (hs : s.status = .running) (hd : decode s.cfg.opcodeMap s.fetchBytes = .missingByte k) :
    step s = .next (s.raiseFault (.memRange (s.pc.toNat + k))) := by
  rw [step_running hs, State.runInstruction, hd]

/-- R81: a running core has a next state, whatever the fetch decodes to. -/
theorem step_next (hs : s.status = .running) : ∃ t, step s = .next t := by
  cases hd : decode s.cfg.opcodeMap s.fetchBytes with
  | missingByte k => exact ⟨_, step_missingByte hs hd⟩
  | unknownOpcode op => exact ⟨_, step_unknownOpcode hs hd⟩
  | ok i rest => rw [step_decoded hs hd]; exact exec_next i s

/-! ### What a fetch sees -/

/-- Above 255 a fetch sees nothing (R82). -/
theorem State.fetchBytes_eq_nil (h : 255 < s.pc.toNat) : s.fetchBytes = [] :=
  List.eq_nil_of_length_eq_zero (by rw [State.fetchBytes_length]; omega)

/-- Up to 255 a fetch sees the byte at pc first (R82). -/
theorem State.fetchBytes_eq_cons (h : s.pc.toNat ≤ 255) : ∃ bs, s.fetchBytes = s.mem.read s.pc.toNat :: bs := by
  refine ⟨s.fetchBytes.tail, List.eq_cons_of_mem_head? ?_⟩
  rw [List.head?_eq_getElem?, State.fetchBytes_getElem?, if_pos ⟨by omega, h⟩]
  rfl

/-- Where memory holds an encoding from pc on, at addresses up to 255, a fetch sees it (R44, R85). -/
theorem State.encode_prefix_fetchBytes (hb : s.pc.toNat + i.bytes ≤ 256)
    (hm : ∀ k, k < i.bytes → (encode s.cfg.opcodeMap i)[k]? = some (s.mem.read (s.pc.toNat + k))) :
    encode s.cfg.opcodeMap i <+: s.fetchBytes := by
  refine List.prefix_iff_getElem?.mpr fun k hk => ?_
  have h3 := Instr.bytes_le (i := i)
  rw [encode_length] at hk
  rw [← List.getElem?_eq_getElem, hm k hk, State.fetchBytes_getElem?, if_pos (by omega)]

/-! ### HALT and the other ways a step ends the run -/

/-- A HALT opcode at pc halts, whatever follows it (R83, R145). -/
theorem step_halt (hs : s.status = .running) (hp : s.pc.toNat ≤ 255)
    (ho : s.mem.read s.pc.toNat = s.cfg.opcodeMap.halt) : step s = .next s.stopHalted := by
  obtain ⟨bs, hf⟩ := State.fetchBytes_eq_cons hp
  exact step_decoded (i := .halt) hs (by rw [hf, ho, decode_cons_of_decodeOpcode (decodeOpcode_halt _)]; rfl)

/-- No instruction raises ALU_UNSUPPORTED (R114). -/
theorem Raises.ne_aluUnsupported (h : Raises s i c) : c ≠ .aluUnsupported := by
  cases h <;> nofun

/-- The three ways a step ends the run (R29): a fault, an unknown opcode, a HALT opcode at pc. -/
theorem step_stops (h : step s = .next t) (ht : t.status ≠ .running) :
    (∃ c, t = s.raiseFault c ∧ c ≠ .aluUnsupported) ∨ (∃ op, t = s.stopUnknown op) ∨
      (t = s.stopHalted ∧ s.pc.toNat ≤ 255 ∧ s.mem.read s.pc.toNat = s.cfg.opcodeMap.halt) := by
  obtain ⟨hs, ⟨-, rfl⟩ | ⟨-, -, rfl⟩ | ⟨k, -, -, -, rfl⟩ | ⟨i, rest, hd, ⟨c, rfl, hc⟩ | hc⟩⟩ := step_cases h
  · exact .inl ⟨_, rfl, nofun⟩
  · exact .inr (.inl ⟨_, rfl⟩)
  · exact .inl ⟨_, rfl, nofun⟩
  · exact .inl ⟨c, rfl, hc.ne_aluUnsupported⟩
  · obtain e | ⟨rfl, rfl⟩ := hc.status_cases
    · exact absurd (e.trans hs) ht
    · obtain ⟨hp, ho⟩ := State.decoded_opcode hd
      exact .inr (.inr ⟨rfl, hp, (byteOf_of_decodeOpcode ho).symm⟩)

/-! ### Runs -/

theorem Reaches.trans (h : Reaches s t) (h' : Reaches t u) : Reaches s u := h'.keeps .tail h

/-- A run is empty or begins with a step. -/
theorem Reaches.head_cases (h : Reaches s u) : u = s ∨ ∃ t, step s = .next t ∧ Reaches t u := by
  induction h with
  | refl => exact .inl rfl
  | tail _ hu ih =>
    obtain rfl | ⟨t, ht, hr⟩ := ih
    · exact .inr ⟨_, hu, .refl⟩
    · exact .inr ⟨t, ht, hr.tail hu⟩

/-- From a stopped core a run stays there (R81). -/
theorem Reaches.eq_of_stopped (h : Reaches s u) (hs : s.status ≠ .running) : u = s :=
  h.head_cases.resolve_right fun ⟨_, ht, _⟩ => hs (step_cases ht).1

/-- A run to a stopped core goes on from what the first step answers. -/
theorem Reaches.of_step (h : Reaches s u) (hu : u.status ≠ .running) (ht : step s = .next t) : Reaches t u := by
  obtain rfl | ⟨t', ht', hr⟩ := h.head_cases
  · exact absurd (step_cases ht).1 hu
  · rw [ht] at ht'; cases ht'; exact hr

end Engine

/-! ### The host's operations -/

section Host

variable {s t : Session} {u : State} {op : HostOp} {ops : List HostOp}

/-- The core's step is the host's, unless a load was refused (R91). -/
theorem Session.step_ok (hp : ∀ c, s.phase ≠ .loadRefused c) (h : Machine.step s.core = .next u) :
    s.step = some { s with core := u, phase := .started } := by
  cases hs : s.phase with
  | loadRefused c => exact absurd hs (hp c)
  | loading => simp only [Session.step, hs, Session.takeStep, h]
  | started => simp only [Session.step, hs, Session.takeStep, h]

/-- A receive takes the oldest event left (R91). -/
theorem Session.receive_ok (h : s.received < s.core.out.length) :
    s.nextEvent = some s.core.out[s.received] ∧ s.receive = some { s with received := s.received + 1 } := by
  have he : s.nextEvent = some s.core.out[s.received] := List.getElem?_eq_getElem h
  exact ⟨he, by rw [Session.receive, he]⟩

/-- No receive is allowed where no event is left (R91). -/
theorem Session.receive_none (h : s.core.out.length ≤ s.received) : s.receive = none := by
  rw [Session.receive, Session.nextEvent, List.getElem?_eq_none h]

/-- Operations in sequence are the first and then the others. -/
theorem Session.performAll_cons (h : s.performAll (op :: ops) = some t) :
    ∃ u, s.perform op = some u ∧ u.performAll ops = some t := by
  rw [Session.performAll] at h
  split at h
  · exact ⟨_, ‹_›, h⟩
  · cases h

/-- R91, R55: after the first step an operation that is no reset is no load, and takes the core a step on or leaves it. -/
theorem Session.perform_started (hp : s.phase = .started) (hop : op.isReset = false) (h : s.perform op = some t) :
    Reaches s.core t.core ∧ t.phase = .started ∧ ∀ a b, op ≠ .load a b := by
  cases op with
  | reset regs mem => cases hop
  | load a b => rw [Session.perform, Session.load_none (by simp [hp])] at h; cases h
  | step =>
    obtain ⟨-, u, hu, rfl⟩ := Session.step_cases h
    exact ⟨.tail .refl hu, rfl, nofun⟩
  | observe => cases h; exact ⟨.refl, hp, nofun⟩
  | receive =>
    obtain ⟨-, rfl⟩ := Session.receive_cases h
    exact ⟨.refl, hp, nofun⟩

/-- Every step keeps what has been emitted at the head of `out` (R31). -/
theorem step_out_prefix {s t : State} (h : step s = .next t) : s.out <+: t.out :=
  (Proofs.runKeepsOutputAndConfiguration _ _ (.tail .refl h)).1

/-- R91, R31: an operation that is no reset takes no received event back, and receives none that was not emitted. -/
theorem Session.perform_received (hr : s.received ≤ s.core.out.length) (hop : op.isReset = false)
    (h : s.perform op = some t) :
    s.core.out.take s.received <+: t.core.out.take t.received ∧ t.received ≤ t.core.out.length := by
  cases op with
  | reset regs mem => cases hop
  | load a b => obtain ⟨-, ⟨-, rfl⟩ | ⟨-, rfl⟩⟩ := Session.load_cases h <;> exact ⟨List.prefix_rfl, hr⟩
  | step =>
    obtain ⟨-, u, hu, rfl⟩ := Session.step_cases h
    have ho := step_out_prefix hu
    exact ⟨ho.take _, hr.trans ho.length_le⟩
  | observe => cases h; exact ⟨List.prefix_rfl, hr⟩
  | receive =>
    obtain ⟨hlt, rfl⟩ := Session.receive_cases h
    exact ⟨List.take_prefix_take_left (Nat.le_succ _), hlt⟩

/-- The host's step keeps the invariant (R91). -/
theorem Session.Inv.step (h : s.Inv) (ht : s.step = some t) : t.Inv := by
  obtain ⟨-, u, hu, rfl⟩ := Session.step_cases ht
  exact {
    core := h.core.step hu
    inReset := fun hp => absurd rfl hp
    refusedAs := nofun
    received := h.received.trans (step_out_prefix hu).length_le }

/-- Receiving keeps the invariant: an event was left (R91). -/
theorem Session.Inv.receive (h : s.Inv) (ht : s.receive = some t) : t.Inv := by
  obtain ⟨hlt, rfl⟩ := Session.receive_cases ht
  exact { core := h.core, inReset := h.inReset, refusedAs := h.refusedAs, received := hlt }

end Host

end Machine

end Sys2Proof

/-! ### The statements of spec/40_engine.md -/

namespace Sys2Proof.Proofs

open Sys2Proof.Machine

/-- Settles O6. -/
theorem stepRunsDecoded : Obligations.StepRunsDecoded := fun _ _ _ => step_decoded

/-- Settles O7: the fetch sees the encoding, and an encoding decodes to its instruction whatever follows it. -/
theorem stepRunsEncodedBytes : Obligations.StepRunsEncodedBytes := by
  intro s i hs hv hb hm
  obtain ⟨rest, hf⟩ := State.encode_prefix_fetchBytes hb hm
  exact step_decoded hs (by rw [← hf]; exact decodeOfEncode _ hv i rest)

/-- Settles O8: the placed bytes stand in memory from pc on, and they are the instruction's encoding under the table's map. -/
theorem placedWordRuns : Obligations.PlacedWordRuns := by
  intro s nbits w i hd hb
  obtain ⟨rest, he⟩ := tableBytes_of_decodeTableWord hd
  obtain ⟨hplace, hread⟩ := s.placeBytes_spec s.pc.toNat (tableBytes nbits w)
  have hpc : (s.withFetchWord nbits w).pc = s.pc := (congrArg State.pc hplace :)
  refine stepRunsEncodedBytes _ i rfl (by decide : OpcodeMap.ls8.valid = true) (by rwa [hpc]) fun k hk => ?_
  have hk3 := Instr.bytes_le (i := i)
  have hlen : (tableBytes nbits w).length = 3 := rfl
  have hmem : (s.withFetchWord nbits w).mem.read (s.pc.toNat + k) = (tableBytes nbits w).getD k 0#8 := by
    refine (hread _).trans ?_
    rw [if_pos (by omega), Nat.add_sub_cancel_left]
  have hke : k < (encode OpcodeMap.ls8 i).length := by rwa [encode_length]
  rw [hpc, hmem, he, List.getD_append _ _ _ _ hke, List.getD_eq_getElem _ _ hke]
  exact List.getElem?_eq_getElem hke

/-- Settles O9: the fetch sees no byte. -/
theorem opcodeFetchOutOfRange : Obligations.OpcodeFetchOutOfRange := fun _ hs hp =>
  step_missingByte (k := 0) hs (by rw [State.fetchBytes_eq_nil hp]; rfl)

/-- Settles O10: the lookup of the byte at pc finds no row. -/
theorem unknownOpcodeStops : Obligations.UnknownOpcodeStops := by
  intro s hs hp hu
  obtain ⟨bs, hf⟩ := State.fetchBytes_eq_cons hp
  exact step_unknownOpcode hs (by rw [hf]; exact decode_cons_eq_unknownOpcode.mpr (decodeOpcode_eq_none.mpr hu))

/-- Settles O11: the fetch ends at address 255, before the row's last operand byte. -/
theorem operandFetchOutOfRange : Obligations.OperandFetchOutOfRange := by
  intro s k hs hp hk hb
  obtain ⟨bs, hf⟩ := State.fetchBytes_eq_cons hp
  have hlen := State.fetchBytes_length (s := s)
  have hk3 := k.bytes_range.2
  rw [hf, List.length_cons] at hlen
  have hd : decode s.cfg.opcodeMap s.fetchBytes = .missingByte (bs.length + 1) := by
    rw [hf, decode_cons_of_decodeOpcode hk, decodeOperands_short (by omega)]
  have ha : s.pc.toNat + (bs.length + 1) = 256 := by omega
  exact ha ▸ step_missingByte hs hd

/-- Settles O12. -/
theorem stepEnabledExactlyWhileRunning : Obligations.StepEnabledExactlyWhileRunning :=
  ⟨fun _ => step_next, fun _ => step_stopped⟩

/-- Settles O17: of the three ways a step ends the run only a fault leaves status FAULT. -/
theorem faultsArePrecise : Obligations.FaultsArePrecise := by
  intro s t c h ht
  obtain ⟨c', rfl, hc⟩ | ⟨op, rfl⟩ | ⟨rfl, -, -⟩ := step_stops h (by simp [ht])
  · cases ht; exact ⟨rfl, hc⟩
  · cases ht
  · cases ht

/-- Settles O18: of the three ways a step ends the run only HALT leaves status HALTED, and at a HALT opcode a step halts. -/
theorem haltsExactlyAtHalt : Obligations.HaltsExactlyAtHalt := by
  intro s t h
  have halted (ht : t.status = .halted) :
      t = s.stopHalted ∧ s.pc.toNat ≤ 255 ∧ s.mem.read s.pc.toNat = s.cfg.opcodeMap.halt := by
    obtain ⟨c, rfl, -⟩ | ⟨op, rfl⟩ | hh := step_stops h (by simp [ht])
    · cases ht
    · cases ht
    · exact hh
  refine ⟨⟨fun ht => (halted ht).2, fun ⟨hp, ho⟩ => ?_⟩, fun ht => (halted ht).1⟩
  have ht := h.symm.trans (step_halt (step_cases h).1 hp ho)
  cases ht
  rfl

/-- Settles O19: a step that leaves the core running committed its instruction, which ends at an address up to 255; each of the three
ways to end the run leaves pc. -/
theorem pcAfterStep : Obligations.PcAfterStep := by
  refine ⟨fun s t i rest hd h ht => ?_, fun s t h ht => ?_⟩
  · obtain ⟨hb, -⟩ := State.decoded_in_memory hd
    rw [step_decoded (step_cases h).1 hd] at h
    obtain ⟨c, rfl, -⟩ | hc := exec_cases h
    · cases ht
    refine ⟨hc.pc_le hb, ?_⟩
    cases hc with
    | ldi hi | prn hi | mul hi hj | add hi hj | cmp hi hj | push hi h hf | pop hi h => exact State.advance_pc_toNat hb
    | call hi h hf | jmp hi => exact ⟨_, hi, zext9_toNat _⟩
    | ret h => exact zext9_toNat _
    | jeq hi =>
      refine ⟨_, hi, ?_⟩
      split
      · exact zext9_toNat _
      · exact State.advance_pc_toNat hb
    | jne hi =>
      refine ⟨_, hi, ?_⟩
      cases s.flags.e
      · exact zext9_toNat _
      · exact State.advance_pc_toNat hb
    | halt => cases ht
  · obtain ⟨c, rfl, -⟩ | ⟨op, rfl⟩ | ⟨rfl, -, -⟩ := step_stops h ht <;> rfl

/-- Settles O27: the jump leaves pc as it was, so the step answers the state itself. -/
theorem jumpToItselfNeverStops : Obligations.JumpToItselfNeverStops := by
  intro s t r rest i hs hd hi hpc
  have hstep : step s = .next s := by
    rw [step_decoded hs hd, exec, execJmp_eq hi, State.jump, hpc]
  refine ⟨hstep, fun hr => ?_⟩
  have ht : t = s := hr.keeps (P := (· = s)) (fun e h => by rw [e, hstep] at h; cases h; rfl) rfl
  exact ⟨ht, ht ▸ hs⟩

/-- Settles O28: the run to the one end goes on from every state of the run to the other, its end included, where it stays. -/
theorem runEndsInOneState : Obligations.RunEndsInOneState := by
  rintro s t u ⟨-, hst, ht⟩ ⟨-, hsu, hu⟩
  have htu : Reaches t u := hst.keeps (P := (Reaches · u)) (fun h => h.of_step hu) hsu
  exact (htu.eq_of_stopped ht).symm

/-- Settles O50. -/
theorem hostResetReplacesState : Obligations.HostResetReplacesState := fun _ _ _ =>
  ⟨_, rfl, State.resetWith_sp, State.resetWith_reg, rfl, rfl, fun _ => rfl, rfl, rfl, rfl⟩

/-- Settles O52, from the host's step in either direction. -/
theorem hostStepRunsCore : Obligations.HostStepRunsCore := by
  refine fun s => ⟨⟨fun ⟨t, h⟩ => ?_, fun ⟨hs, hp⟩ => ?_⟩, fun t h => ?_⟩
  · obtain ⟨hp, u, hu, -⟩ := Session.step_cases h
    exact ⟨(step_cases hu).1, hp⟩
  · obtain ⟨u, hu⟩ := step_next hs
    exact ⟨_, Session.step_ok hp hu⟩
  · obtain ⟨-, u, hu, rfl⟩ := Session.step_cases h
    exact ⟨hu, rfl, rfl⟩

/-- Settles O53, by induction on the operations. -/
theorem hostWritesNothingAfterFirstStep : Obligations.HostWritesNothingAfterFirstStep := by
  intro s t ops hp hops h
  induction ops generalizing s with
  | nil => cases h; exact ⟨.refl, hp, fun _ _ => List.not_mem_nil⟩
  | cons op ops ih =>
    obtain ⟨hop, hops⟩ := List.forall_mem_cons.mp hops
    obtain ⟨u, hu, h⟩ := Session.performAll_cons h
    obtain ⟨hsu, hpu, hload⟩ := Session.perform_started hp hop hu
    obtain ⟨hut, hpt, hloads⟩ := ih u hpu hops h
    exact ⟨hsu.trans hut, hpt, fun a b => List.not_mem_cons_of_ne_of_not_mem (hload a b).symm (hloads a b)⟩

/-- Settles O54: each operation that is no reset keeps the events received at the head of those received after it. -/
theorem hostReceivesInOrder : Obligations.HostReceivesInOrder := by
  refine ⟨fun _ => rfl, fun s hlt => ?_, fun s => Session.receive_none, fun s t ops hr hops h => ?_⟩
  · obtain ⟨he, ht⟩ := Session.receive_ok hlt
    exact ⟨_, _, ht, he, rfl, rfl, List.take_succ_eq_append_getElem hlt⟩
  · refine Session.performAll_keeps (Q := (HostOp.isReset · = false))
      (P := fun t => s.core.out.take s.received <+: t.core.out.take t.received ∧ t.received ≤ t.core.out.length)
      (fun ⟨hpre, hle⟩ hop h => ?_) ⟨List.prefix_rfl, hr⟩ hops h
    exact (Session.perform_received hle hop h).imp_left hpre.trans

/-- Settles O58: each operation's own lemma, a reset being a creation under the same configuration. -/
theorem hostOperationsKeepInvariant : Obligations.HostOperationsKeepInvariant := by
  intro s t op hs hm h
  cases op with
  | reset regs mem => cases h; exact Session.create_inv hs.core.mapValid (hm _ _ rfl)
  | load a b => exact hs.load h
  | step => exact hs.step h
  | observe => cases h; exact hs
  | receive => exact hs.receive h

end Sys2Proof.Proofs

/-! ## The register write's frame, and the statements of spec/41_load_output.md -/

namespace Sys2Proof.Machine

/-- A register write reads back (R100's law). -/
theorem State.reg_setReg_self (s : State) (i : Fin 8) (v : Byte) : (s.setReg i v).reg i = v := by
  rw [State.reg_setReg, if_pos rfl]

/-- A register write leaves every other register. -/
theorem State.sameRegsBut_setReg (s : State) (i : Fin 8) (v : Byte) : sameRegsBut [i] s (s.setReg i v) := fun j hj => by
  rw [State.reg_setReg, if_neg (Ne.symm (List.ne_of_not_mem_cons hj))]

end Sys2Proof.Machine

namespace Sys2Proof.Proofs

open Sys2Proof.Machine

/-- Settles O32: an instruction in range commits one register write and the advance of pc. -/
theorem ldiSetsRegister : Obligations.LdiSetsRegister := fun s _ imm i hi =>
  ⟨_, execLdi_eq hi, s.reg_setReg_self i imm, rfl, s.sameRegsBut_setReg i imm, fun _ _ => rfl, rfl, rfl, rfl, rfl⟩

/-- Settles O33: an instruction in range commits one event and the advance of pc. -/
theorem prnEmitsRegister : Obligations.PrnEmitsRegister := fun _ _ _ hi =>
  ⟨_, execPrn_eq hi, rfl, rfl, fun _ _ => rfl, fun _ _ => rfl, rfl, rfl, rfl⟩

end Sys2Proof.Proofs

/-! ## The ALU's value functions, and the statements of spec/42_alu.md -/

namespace Sys2Proof.Machine

section Alu

variable {p q : Byte}

theorem aluAdd_toNat (p q : Byte) : (aluAdd p q).toNat = (p.toNat + q.toNat) % 256 := trunc8_val _

theorem aluMul_toNat (p q : Byte) : (aluMul p q).toNat = (p.toNat * q.toNat) % 256 := trunc8_val _

/-- MULTIPLY keeps the low byte of the product in 16 bits, which holds it whole (R112). -/
theorem aluMul_eq_extractLsb' (p q : Byte) : aluMul p q = (p.setWidth 16 * q.setWidth 16).extractLsb' 0 8 := by
  have hpq : p.toNat * q.toNat < 2 ^ 16 := Nat.mul_lt_mul'' (c := 2 ^ 8) (d := 2 ^ 8) p.isLt q.isLt
  refine BitVec.eq_of_toNat_eq ?_
  rw [aluMul_toNat, BitVec.extractLsb'_toNat, Nat.shiftRight_zero, BitVec.toNat_mul, BitVec.toNat_setWidth_of_le (by decide),
    BitVec.toNat_setWidth_of_le (by decide), Nat.mod_eq_of_lt hpq]

theorem aluCmp_of_eq (h : p = q) : aluCmp p q = ⟨true, false, false⟩ := by
  rw [aluCmp_eq_flags, if_pos h]; rfl

theorem aluCmp_of_lt (h : p.toNat < q.toNat) : aluCmp p q = ⟨false, true, false⟩ := by
  have hne : p ≠ q := fun e => h.ne (congrArg _ e)
  rw [aluCmp_eq_flags, if_neg hne, if_pos h]; rfl

theorem aluCmp_of_gt (h : q.toNat < p.toNat) : aluCmp p q = ⟨false, false, true⟩ := by
  have hne : p ≠ q := fun e => h.ne' (congrArg _ e)
  rw [aluCmp_eq_flags, if_neg hne, if_neg h.not_gt]; rfl

theorem aluCmp_e_iff : (aluCmp p q).e = true ↔ p = q := decide_eq_true_iff.trans BitVec.toNat_inj

theorem aluCmp_l_iff : (aluCmp p q).l = true ↔ p.toNat < q.toNat := decide_eq_true_iff

theorem aluCmp_g_iff : (aluCmp p q).g = true ↔ q.toNat < p.toNat := decide_eq_true_iff

/-- Every other byte is below 0xFF, unsigned (R113). -/
theorem toNat_lt_of_ne_0xFF (h : p ≠ 0xFF#8) : p.toNat < (0xFF#8).toNat :=
  BitVec.lt_def.mp (BitVec.lt_allOnes_iff.mpr h)

/-- A register write leaves the pc, every other register, memory and the rest. -/
theorem State.setReg_frame (s : State) (i : Fin 8) (v : Byte) :
    (s.setReg i v).pc = s.pc ∧ sameRegsBut [i] s (s.setReg i v) ∧ sameMemBut [] s (s.setReg i v) ∧
      sameRest s (s.setReg i v) :=
  ⟨rfl, s.sameRegsBut_setReg i v, fun _ _ => rfl, rfl, rfl, rfl, rfl⟩

end Alu

end Sys2Proof.Machine

namespace Sys2Proof.Proofs

open Sys2Proof.Machine

/-- Settles O29: the ALU's ADD is one register write. -/
theorem aluAddFunction : Obligations.AluAddFunction := by
  refine ⟨aluAdd_toNat, fun s a b => ⟨?_, s.setReg_frame a _⟩⟩
  rw [State.alu_add, State.reg_setReg_self, aluAdd_toNat]

/-- Settles O30: the ALU's MULTIPLY is one register write. -/
theorem aluMultiplyFunction : Obligations.AluMultiplyFunction := by
  refine ⟨fun p q => ⟨aluMul_toNat p q, aluMul_eq_extractLsb' p q⟩, fun s a b => ⟨?_, s.setReg_frame a _⟩⟩
  rw [State.alu_multiply, State.reg_setReg_self, aluMul_toNat]

/-- Settles O31, from the comparison's value in each of the three orders. -/
theorem aluCompareFunction : Obligations.AluCompareFunction := fun p q =>
  ⟨aluCmp_of_eq, aluCmp_of_lt, aluCmp_of_gt, aluCmp_exactlyOne p q, aluCmp_of_gt (by decide),
    fun h => aluCmp_of_gt (toNat_lt_of_ne_0xFF h)⟩

/-- Settles O34: an instruction in range commits the ALU's MULTIPLY and the advance of pc. -/
theorem mulSetsProduct : Obligations.MulSetsProduct := by
  intro s a b i j hi hj
  obtain ⟨hval, hpc, hregs, hmem, hrest⟩ := aluMultiplyFunction.2 s i j
  exact ⟨_, aluInstr_eq .multiply hi hj, hval, congrArg (· + 3#9) hpc, hregs, hmem, hrest⟩

/-- Settles O35: an instruction in range commits the ALU's ADD and the advance of pc. -/
theorem addSetsSum : Obligations.AddSetsSum := by
  intro s a b i j hi hj
  obtain ⟨hval, hpc, hregs, hmem, hrest⟩ := aluAddFunction.2 s i j
  exact ⟨_, aluInstr_eq .add hi hj, hval, congrArg (· + 3#9) hpc, hregs, hmem, hrest⟩

/-- Settles O36: an instruction in range commits the ALU's COMPARE, which writes the flags alone, and the advance of pc. -/
theorem cmpSetsFlags : Obligations.CmpSetsFlags := fun _ _ _ _ _ hi hj =>
  ⟨_, aluInstr_eq .compare hi hj, aluCmp_e_iff, aluCmp_l_iff, aluCmp_g_iff, rfl, fun _ _ => rfl, fun _ _ => rfl, rfl, rfl, rfl⟩

end Sys2Proof.Proofs

/-! ## The stack's laws, and the statements of spec/43_stack.md

The round trip is the completion of PUSH followed by that of POP, so these are settled first. -/

namespace Sys2Proof.Machine

section Stack

variable {s t u : State} {i : Fin 8} {r p v : Byte}

/-! ### SP's two neighbours -/

/-- Off 0, the address of the slot is one below SP (R131). -/
theorem toNat_sub_one_of_ne_zero (h : p ≠ 0#8) : (p - 1#8).toNat + 1 = p.toNat := by
  bv_omega

/-- A push leaves SP below 0xFF, so a POP may follow it (R131, R132). -/
theorem sub_one_ne_0xFF (h : p ≠ 0#8) : p - 1#8 ≠ 0xFF#8 := by
  bv_omega

/-- Below 0xFF, SP's increment does not wrap (R132). -/
theorem toNat_add_one_of_ne_0xFF (h : p ≠ 0xFF#8) : (p + 1#8).toNat = p.toNat + 1 := by
  bv_omega

/-! ### The SP a POP increments -/

/-- Writing another register leaves SP (R21, R134). -/
theorem State.sp_setReg_of_ne (h : i ≠ 7) : (s.setReg i v).sp = s.sp := by
  rw [State.sp_setReg, if_neg h]

/-- POP r increments the old SP, for r other than R7 (R134). -/
theorem exec_pop_of_ne (hi : r.toNat = i.val) (h7 : i ≠ 7) (hsp : s.sp ≠ 0xFF#8) :
    exec (.pop r) s = .next (((s.setReg i (s.mem.read s.sp.toNat)).setReg 7 (s.sp + 1#8)).advance 2) := by
  have hpop := exec_of_commits (Commits.pop (s := s) hi (by rwa [State.sp_setReg_of_ne h7]))
  rwa [State.sp_setReg_of_ne h7] at hpop

/-- POP R7 increments the popped byte (R134, C4). -/
theorem exec_pop_sp (hv : s.mem.read s.sp.toNat ≠ 0xFF#8) :
    exec (.pop 7#8) s = .next (((s.setReg 7 (s.mem.read s.sp.toNat)).setReg 7
      (s.mem.read s.sp.toNat + 1#8)).advance 2) := by
  have hsp : (s.setReg 7 (s.mem.read s.sp.toNat)).sp = s.mem.read s.sp.toNat := s.reg_setReg_self 7 _
  have hpop := exec_of_commits (Commits.pop (s := s) (r := 7#8) (i := 7) rfl (by rwa [hsp]))
  rwa [hsp] at hpop

/-! ### Frames one after another -/

theorem sameRegsBut.trans {w w' : List (Fin 8)} (h : sameRegsBut w s t) (h' : sameRegsBut w' t u) :
    sameRegsBut (w ++ w') s u := fun j hj => by
  rw [List.mem_append, not_or] at hj
  exact (h' j hj.2).trans (h j hj.1)

theorem sameRest.trans (h : sameRest s t) (h' : sameRest t u) : sameRest s u := by
  obtain ⟨hf, hs, ho, hc⟩ := h
  obtain ⟨hf', hs', ho', hc'⟩ := h'
  exact ⟨hf'.trans hf, hs'.trans hs, ho'.trans ho, hc'.trans hc⟩

end Stack

end Sys2Proof.Machine

namespace Sys2Proof.Proofs

open Sys2Proof.Machine

/-- Settles O14: the two faults of the slot that PUSH and CALL share. -/
theorem pushAndCallBounds : Obligations.PushAndCallBounds := fun _ _ _ hi =>
  ⟨fun h => h ▸ ⟨exec_of_raises (.pushUnderflow hi h), exec_of_raises (.callUnderflow hi h)⟩,
    fun h hf => ⟨exec_of_raises (.pushCollision hi h hf), exec_of_raises (.callCollision hi h hf)⟩⟩

/-- Settles O15: the SP to be incremented is the old one, but for POP R7, where it is the popped byte. -/
theorem popAndRetBounds : Obligations.PopAndRetBounds :=
  ⟨fun _ _ _ hi h7 h => exec_of_raises (.popOverflow hi ((State.sp_setReg_of_ne h7).trans h)),
    fun s h => exec_of_raises (.popOverflow (i := 7) rfl ((s.reg_setReg_self 7 _).trans h)),
    fun _ h => exec_of_raises (.retOverflow h)⟩

/-- Settles O37: a push past its checks commits one register write, one memory write and the advance of pc. -/
theorem pushStoresRegister : Obligations.PushStoresRegister := fun s _ i hi h0 hf =>
  ⟨_, exec_of_commits (.push hi h0 hf), s.reg_setReg_self 7 _,
    (congrArg (·.toNat + 1) (s.reg_setReg_self 7 _)).trans (toNat_sub_one_of_ne_zero h0), Memory.read_write.trans (if_pos rfl),
    rfl, s.sameRegsBut_setReg 7 _, s.sameMemBut_write _ (s.reg i), rfl, rfl, rfl, rfl⟩

/-- Settles O38: a pop past its check commits two register writes, the second of them SP's, and the advance of pc. -/
theorem popLoadsRegister : Obligations.PopLoadsRegister := by
  refine ⟨fun s r i hi h7 hsp => ?_, fun s hv => ?_⟩
  · refine ⟨_, exec_pop_of_ne hi h7 hsp, ?_, ?_, rfl, ?_, fun _ _ => rfl, rfl, rfl, rfl, rfl⟩
    · exact State.reg_setReg.trans ((if_neg h7.symm).trans (s.reg_setReg_self i _))
    · exact (congrArg _ (State.reg_setReg_self _ 7 _)).trans (toNat_add_one_of_ne_0xFF hsp)
    · exact (s.sameRegsBut_setReg i _).trans (State.sameRegsBut_setReg _ 7 _)
  · refine ⟨_, exec_pop_sp hv, ?_, rfl, fun j hj => ?_, fun _ _ => rfl, rfl, rfl, rfl, rfl⟩
    · exact (congrArg _ (State.reg_setReg_self _ 7 _)).trans (toNat_add_one_of_ne_0xFF hv)
    · exact ((s.sameRegsBut_setReg 7 _).trans (State.sameRegsBut_setReg _ 7 _)) j (by simpa using hj)

/-- Settles O44: the push leaves x[r] on top of the stack and an SP below 0xFF, so POP r2 completes for r2 other than R7; for R7 the
popped byte is x[r], and decides. -/
theorem pushPopRoundTrip : Obligations.PushPopRoundTrip := by
  intro s r r2 i j hi hj h0 hf
  obtain ⟨t, hpush, hsp, hspn, hread, hpc, hregs, -, hrest⟩ := pushStoresRegister s r i hi h0 hf
  have htop : t.mem.read t.sp.toNat = s.reg i := by rw [hsp, hread]
  have hr2 (h7 : j = 7) : r2 = 7#8 := BitVec.eq_of_toNat_eq (by rw [hj, h7]; rfl)
  refine ⟨t, hpush, fun h7 => ?_, fun h7 hv => ?_, fun h7 hv => ?_⟩
  · have hne : t.sp ≠ 0xFF#8 := hsp ▸ sub_one_ne_0xFF h0
    obtain ⟨u, hpop, hval, husp, hupc, huregs, -, hurest⟩ := popLoadsRegister.1 t r2 j hj h7 hne
    have hsp' : u.sp = s.sp := BitVec.eq_of_toNat_eq (husp.trans hspn)
    refine ⟨u, hpop, hval.trans htop, hsp', fun k hk => ?_, ?_, hrest.trans hurest⟩
    · by_cases hk7 : k = 7
      · exact hk7 ▸ hsp'
      · exact (hregs.trans huregs) k (by simp [hk7, List.ne_of_not_mem_cons hk])
    · rw [hupc, hpc, BitVec.add_assoc]; rfl
  · obtain ⟨u, hpop, husp, -⟩ := popLoadsRegister.2 t (htop ▸ hv)
    exact ⟨u, hr2 h7 ▸ hpop, htop ▸ husp⟩
  · exact hr2 h7 ▸ popAndRetBounds.2.1 t (htop.trans hv)

end Sys2Proof.Proofs

/-! ## The jumps' frames, and the statements of spec/44_control.md

The round trip is the completion of CALL followed by that of RET, so these are settled first. -/

namespace Sys2Proof.Machine

section Control

variable {s t u : State} {i : Fin 8} {p : Byte}

/-- The register CALL jumps through is read after SP is set (R140, D12). -/
theorem State.reg_setReg_sp : (s.setReg 7 p).reg i = if i = 7 then p else s.reg i :=
  State.reg_setReg.trans (if_congr eq_comm rfl rfl)

/-- A jump writes the pc alone (R142, R146). -/
theorem State.jump_frame (s : State) (v : Byte) :
    sameRegsBut [] s (s.jump v) ∧ sameMemBut [] s (s.jump v) ∧ sameRest s (s.jump v) :=
  ⟨fun _ _ => rfl, fun _ _ => rfl, rfl, rfl, rfl, rfl⟩

/-- The pc's advance writes the pc alone (R88). -/
theorem State.advance_frame (s : State) (n : Nat) :
    sameRegsBut [] s (s.advance n) ∧ sameMemBut [] s (s.advance n) ∧ sameRest s (s.advance n) :=
  ⟨fun _ _ => rfl, fun _ _ => rfl, rfl, rfl, rfl, rfl⟩

/-- A conditional jump writes the pc alone, whether or not it is taken (R143, R144). -/
theorem State.jumpOrAdvance_spec (s : State) (taken : Prop) [Decidable taken] (v : Byte) (n : Nat) :
    let t := if taken then s.jump v else s.advance n
    t.pc = (if taken then zext9 v else s.pc + BitVec.ofNat 9 n) ∧ sameRegsBut [] s t ∧ sameMemBut [] s t ∧ sameRest s t := by
  by_cases h : taken
  · simp only [if_pos h]
    exact ⟨rfl, s.jump_frame v⟩
  · simp only [if_neg h]
    exact ⟨rfl, s.advance_frame n⟩

theorem sameMemBut.trans {w w' : List Nat} (h : sameMemBut w s t) (h' : sameMemBut w' t u) :
    sameMemBut (w ++ w') s u := fun a ha => by
  rw [List.mem_append, not_or] at ha
  exact (h' a ha.2).trans (h a ha.1)

end Control

end Sys2Proof.Machine

namespace Sys2Proof.Proofs

open Sys2Proof.Machine

/-- Settles O39: a call past its checks commits one register write, one memory write and the jump. -/
theorem callPushesReturnAddress : Obligations.CallPushesReturnAddress := by
  intro s r i hi h0 hf
  refine ⟨_, exec_of_commits (.call hi h0 hf), s.reg_setReg_self 7 _, ?_, s.mem.read_write_toNat _ _, ?_,
    s.sameRegsBut_setReg 7 _, s.sameMemBut_write _ _, rfl, rfl, rfl, rfl⟩
  · exact (congrArg (·.toNat + 1) (s.reg_setReg_self 7 _)).trans (toNat_sub_one_of_ne_zero h0)
  · rw [State.jump_pc, zext9_toNat, State.reg_setReg_sp, apply_ite BitVec.toNat]

/-- Settles O40: a return past its check commits one register write and the jump. -/
theorem retPopsReturnAddress : Obligations.RetPopsReturnAddress := fun s hsp =>
  ⟨_, exec_of_commits (.ret hsp), zext9_toNat _,
    (congrArg _ (s.reg_setReg_self 7 _)).trans (toNat_add_one_of_ne_0xFF hsp),
    s.sameRegsBut_setReg 7 _, fun _ _ => rfl, rfl, rfl, rfl, rfl⟩

/-- Settles O41: a jump in range commits the jump alone. -/
theorem jmpSetsPc : Obligations.JmpSetsPc := fun s _ i hi =>
  ⟨_, exec_of_commits (.jmp hi), zext9_toNat _, s.jump_frame (s.reg i)⟩

/-- Settles O42: a conditional jump in range commits the jump or the advance of pc; JNE's condition is that E is not set. -/
theorem conditionalJumps : Obligations.ConditionalJumps := by
  refine fun s r i hi => ⟨⟨_, exec_of_commits (.jeq hi), s.jumpOrAdvance_spec _ (s.reg i) 2⟩, ?_⟩
  have hjne := exec_of_commits (.jne (s := s) hi)
  simp only [Bool.not_eq_true'] at hjne
  exact ⟨_, hjne, s.jumpOrAdvance_spec _ (s.reg i) 2⟩

/-- Settles O43: HALT commits the stop in every state. -/
theorem haltStops : Obligations.HaltStops := fun _ =>
  ⟨_, exec_of_commits .halt, rfl, rfl, fun _ _ => rfl, fun _ _ => rfl, rfl, rfl, rfl⟩

/-- Settles O45: the call leaves the return address on top of the stack and an SP below 0xFF, so RET completes and takes SP back to where
it was. -/
theorem callRetRoundTrip : Obligations.CallRetRoundTrip := by
  intro s r i hi h0 hf
  obtain ⟨t, hcall, hsp, hspn, hread, -, hregs, hmem, hrest⟩ := callPushesReturnAddress s r i hi h0 hf
  obtain ⟨u, hret, hpc, husp, huregs, humem, hurest⟩ := retPopsReturnAddress t (hsp ▸ sub_one_ne_0xFF h0)
  have hsp' : u.sp = s.sp := BitVec.eq_of_toNat_eq (husp.trans hspn)
  refine ⟨t, u, hcall, hret, ?_, fun k _ => ?_, hrest.trans hurest, hmem.trans humem⟩
  · rw [hpc, hsp, hread]
  · by_cases hk7 : k = 7
    · exact hk7 ▸ hsp'
    · exact (hregs.trans huregs) k (by simp [hk7])

end Sys2Proof.Proofs

/-! ## The outcome table's laws, and the statement of spec/60_exceptions.md -/

namespace Sys2Proof.Machine

section Outcomes

variable {s t : State} {i : Instr} {j : Fin 8} {r v : Byte}

/-- HALT alone ends a run by committing (R29, R145). -/
theorem Commits.status_running (h : Commits s i t) (hs : s.status = .running) (hi : i ≠ .halt) : t.status = .running :=
  h.status_cases.elim (·.trans hs) fun ⟨hh, _⟩ => absurd hh hi

/-- The operand byte that selects SP (R21, R62). -/
theorem eq_seven_iff_of_toNat (hj : r.toNat = j.val) : r = 7#8 ↔ j = 7 := by
  rw [← BitVec.toNat_inj, hj, Fin.ext_iff]
  rfl

/-- The SP a POP increments is the popped byte for R7, and the old SP for every other register (R134, C4). -/
theorem State.sp_setReg_operand (hj : r.toNat = j.val) : (s.setReg j v).sp = if r = 7#8 then v else s.sp :=
  State.sp_setReg.trans (if_congr (eq_seven_iff_of_toNat hj).symm rfl rfl)

end Outcomes

end Sys2Proof.Machine

namespace Sys2Proof.Proofs

open Sys2Proof.Machine

/-- Settles O16: a next state is the fault of a check, with that check's condition and info, or what the instruction commits, which is
still running but for HALT. -/
theorem outcomesPerInstruction : Obligations.OutcomesPerInstruction := by
  intro s t i hs h
  obtain ⟨c, rfl, hc⟩ | hc := exec_cases h
  · cases hc with
    | first ho hr =>
      cases i with
      | ldi r imm | prn r | jmp r | jeq r | jne r => cases ho; exact .inr ⟨hr, rfl⟩
      | mul a b | add a b | cmp a b | push r | pop r | call r => cases ho; exact .inr (.inl ⟨hr, rfl⟩)
      | ret | halt => cases ho
    | second ho ha hb =>
      cases i with
      | mul a b | add a b | cmp a b => cases ho; exact .inr (.inr ⟨ha, hb, rfl⟩)
      | _ => cases ho
    | pushUnderflow hj h0 | callUnderflow hj h0 =>
      exact .inr (.inr (.inl ⟨hj.trans_le (Fin.is_le _), h0, congrArg (Status.fault <| .stackUnderflow ·) h0⟩))
    | pushCollision hj h0 hf | callCollision hj h0 hf =>
      exact .inr (.inr (.inr ⟨hj.trans_le (Fin.is_le _), h0, hf, rfl⟩))
    | popOverflow hj hsp =>
      exact .inr (.inr ⟨hj.trans_le (Fin.is_le _), (State.sp_setReg_operand hj).symm.trans hsp, rfl⟩)
    | retOverflow hsp => exact .inr ⟨hsp, rfl⟩
  · cases i with
    | halt => cases hc; rfl
    | _ => exact .inl (hc.status_running hs nofun)

end Sys2Proof.Proofs
